-- ==== Sys2Proof/Word.lean ====
section
/-! DEFINITION. The machine's words: the byte, the 16-bit immediate, the 64-bit word, the register index and the
binary64 number of a register slot (spec 00_scope.md R10, R11; 10_state.md R20; 42_arithmetic.md R110). -/

namespace Sys2Proof

/-- A byte of the program buffer (R11). -/
abbrev Byte := BitVec 8

/-- The 16-bit word `FetchWord` reads: the LOAD immediate (R10). -/
abbrev Half := BitVec 16

/-- A 64-bit unsigned word: the program counter, an address, the program's length, the fault record (R20, R27). -/
abbrev Word := BitVec 64

/-- A register field of an instruction: an 8-bit unsigned index (R10, R62). -/
abbrev RegIdx := BitVec 8

/-- An IEEE 754 binary64 number: 1 sign bit, 11 exponent bits, 52 fraction bits (R110). The machine only ever writes
finite ones (R25); the infinities and NaNs are here because the host can offer one to WRITE_REG, which refuses it
(R37), and because a rounding can overflow (R111, R113). -/
structure F64 where
  neg  : Bool
  exp  : BitVec 11
  frac : BitVec 52
deriving DecidableEq, Repr

/-- `+0.0`, the reset value of every register slot (R20). -/
def F64.posZero : F64 := ⟨false, 0, 0⟩

/-- `-0.0` (R25: both zeros can occur). -/
def F64.negZero : F64 := ⟨true, 0, 0⟩

end Sys2Proof
end

