-- ==== Sys2Proof/Machine/Float64.lean ====
section
/-! DEFINITION. The arithmetic unit's numbers: binary64 with round to nearest, ties to even (spec 42_arithmetic.md R110
to R113; log 3 for the choice of binary64, D3, and log 22 for the IEEE 754 rules). Exact values are rationals; a
result is computed exactly and rounded once. -/

namespace Sys2Proof

/-- Read a 64-bit pattern as a binary64 number (the layout of R110). -/
def F64.ofBits (b : Word) : F64 := ⟨b.getLsbD 63, b.extractLsb' 52 11, b.extractLsb' 0 52⟩

/-- Neither an infinity nor a NaN: the exponent field is not all ones (R25, R113). -/
def F64.isFinite (v : F64) : Bool := v.exp != 2047

/-- The magnitude of a finite number as a count of 2^-1074, the smallest subnormal: a zero exponent field means a
subnormal, any other an implicit leading one (R110, R111 "gradual underflow"). -/
def F64.magnitude (v : F64) : Nat :=
  if v.exp = 0 then v.frac.toNat else (2 ^ 52 + v.frac.toNat) * 2 ^ (v.exp.toNat - 1)

/-- `real(v)`: the exact real number a finite binary64 denotes; both zeros denote 0 (R12). -/
def F64.real (v : F64) : Rat := mkRat (if v.neg then -(v.magnitude : Int) else v.magnitude) (2 ^ 1074)

/-- `f64(k)`: the binary64 number equal to the natural number `k`, for `k ≤ 2^53` (R12). -/
def F64.ofNat (k : Nat) : F64 :=
  if k = 0 then F64.posZero
  else ⟨false, BitVec.ofNat 11 (1023 + k.log2), BitVec.ofNat 52 (k * 2 ^ (52 - k.log2) - 2 ^ 52)⟩

/-- The number whose exponent and fraction fields, read together as one number, are `b`; from the all-ones exponent on,
the infinity (R111). -/
def F64.ofFields (neg : Bool) (b : Nat) : F64 :=
  if b < 2047 * 2 ^ 52 then ⟨neg, BitVec.ofNat 11 (b / 2 ^ 52), BitVec.ofNat 52 (b % 2 ^ 52)⟩ else ⟨neg, 2047, 0⟩

/-- Round `n / d` to the nearest integer, a tie to the even one (R111). -/
def roundHalfEven (n d : Nat) : Nat :=
  if d < 2 * (n % d) ∨ (d = 2 * (n % d) ∧ n / d % 2 = 1) then n / d + 1 else n / d

/-- Round the magnitude `n / d`, counted in 2^-1074, to the exponent and fraction fields of a binary64 number, read
together as one number. The last place of the result is 2^k; for a magnitude below 2^53 it is 2^0, which holds the
subnormals. A carry out of the fraction runs into the exponent, as it should (R111). -/
def roundFields (n d : Nat) : Nat :=
  let k := (n / d).log2 - 52
  k * 2 ^ 52 + roundHalfEven n (d * 2 ^ k)

/-- `round(q)` with the sign bit given: the binary64 number nearest to the exact `q`, ties to even, an infinity from
2^1024 − 2^970 on, subnormals kept (R111). `neg` is the sign of `q`; it decides the sign where the result is a zero. -/
def F64.round (neg : Bool) (q : Rat) : F64 := F64.ofFields neg (roundFields (q.num.natAbs * 2 ^ 1074) q.den)

/-- `fadd`: an exact sum of 0 is `+0.0`, but `-0.0` for two `-0.0` (R111). -/
def fadd (x y : F64) : F64 :=
  let q := x.real + y.real
  if q = 0 then (if x.neg && y.neg then F64.negZero else F64.posZero) else F64.round (q < 0) q

/-- `fsub`: an exact difference of 0 is `+0.0`, but `-0.0` for `-0.0` minus `+0.0` (R111). -/
def fsub (x y : F64) : F64 :=
  let q := x.real - y.real
  if q = 0 then (if x.neg && !y.neg then F64.negZero else F64.posZero) else F64.round (q < 0) q

/-- `fmul`: the sign, of a zero too, is the exclusive-or of the signs (R111, R122). -/
def fmul (x y : F64) : F64 := F64.round (x.neg ^^ y.neg) (x.real * y.real)

/-- `fdiv`, for a divisor that is not zero: the sign, of a zero too, is the exclusive-or of the signs (R111, R123). -/
def fdiv (x y : F64) : F64 := F64.round (x.neg ^^ y.neg) (x.real / y.real)

/-- The four operations the shared arithmetic handler is parameterised by (R114). -/
inductive ArithOp
  | fadd | fsub | fmul | fdiv
deriving DecidableEq, Repr

/-- The binary64 result of an operation (R111). -/
def ArithOp.apply : ArithOp → F64 → F64 → F64
  | .fadd => Sys2Proof.fadd
  | .fsub => Sys2Proof.fsub
  | .fmul => Sys2Proof.fmul
  | .fdiv => Sys2Proof.fdiv

/-- The exact result of an operation on reals, before rounding (R111). -/
def ArithOp.exact : ArithOp → Rat → Rat → Rat
  | .fadd, x, y => x + y
  | .fsub, x, y => x - y
  | .fmul, x, y => x * y
  | .fdiv, x, y => x / y

end Sys2Proof
end

