-- ==== Sys2Proof/Config.lean ====
section
/-! DEFINITION. The implementation parameters of spec 00_scope.md R9 that are fixed numbers. PROG, PROG_LEN and
REG_COUNT are per instance and stand in State; OPCODE_MAP is `Opcode.value` in Decode.lean; VALUE is `F64`. -/

namespace Sys2Proof.Config

/-- REG_COUNT's default (R9: "default 32"). -/
def defaultRegCount : Nat := 32

/-- REG_COUNT's largest legal value (R9, R231). -/
def maxRegCount : Nat := 256

/-- PROG_LEN's largest legal value (R9, R231). -/
def maxProgLen : Nat := 2 ^ 64 - 1

/-- The longest instruction, in bytes (R61: lengths 1, 2 and 4). -/
def maxInstrLength : Nat := 4

end Sys2Proof.Config
end

