-- ==== Sys2Proof/Syntax.lean ====
section
/-! DEFINITION. The instruction set as syntax: the 18 instructions of spec 30_encoding.md R63 (opcode_table.json),
the five formats of R61, and which registers an instruction names (10_state.md R23). -/

namespace Sys2Proof

/-- The instructions. Operands stand in encoding order (R61). The comparisons carry their padding byte, which is part
of the encoding and means nothing (R62, R140). -/
inductive Instr
  /-- `NOP` (R190) -/
  | nop
  /-- `LOAD dst, imm` (R100) -/
  | load (dst : RegIdx) (imm : Half)
  /-- `ADD a, b, dst` (R120) -/
  | add (a b dst : RegIdx)
  /-- `SUB a, b, dst` (R121) -/
  | sub (a b dst : RegIdx)
  /-- `MUL a, b, dst` (R122) -/
  | mul (a b dst : RegIdx)
  /-- `TRUEDIV a, b, dst` (R123) -/
  | truediv (a b dst : RegIdx)
  /-- `EQ a, b, pad` (R141) -/
  | eq (a b : RegIdx) (pad : Byte)
  /-- `NE a, b, pad` (R142) -/
  | ne (a b : RegIdx) (pad : Byte)
  /-- `GT a, b, pad` (R143) -/
  | gt (a b : RegIdx) (pad : Byte)
  /-- `LT a, b, pad` (R144) -/
  | lt (a b : RegIdx) (pad : Byte)
  /-- `GE a, b, pad` (R145) -/
  | ge (a b : RegIdx) (pad : Byte)
  /-- `LE a, b, pad` (R146) -/
  | le (a b : RegIdx) (pad : Byte)
  /-- `JMP target` (R161) -/
  | jmp (target : RegIdx)
  /-- `JMPF offset` (R162) -/
  | jmpf (offset : RegIdx)
  /-- `JMPB offset` (R163) -/
  | jmpb (offset : RegIdx)
  /-- `JEQ target` (R164) -/
  | jeq (target : RegIdx)
  /-- `JNE target` (R165) -/
  | jne (target : RegIdx)
  /-- `HLT` (R191) -/
  | hlt
deriving DecidableEq, Repr

/-- The closed set of 18 opcodes (R3, R63). -/
inductive Opcode
  | nop | load | add | sub | mul | truediv | eq | ne | gt | lt | ge | le | jmp | jmpf | jmpb | jeq | jne | hlt
deriving DecidableEq, Repr

/-- The five instruction formats (R61). -/
inductive Format
  | N | J | I | R | C
deriving DecidableEq, Repr

/-- An instruction's length in bytes, by format (R61). -/
def Format.length : Format → Nat
  | .N => 1
  | .J => 2
  | .I => 4
  | .R => 4
  | .C => 4

/-- Each opcode's format (the table of R63). -/
def Opcode.format : Opcode → Format
  | .nop => .N
  | .load => .I
  | .add => .R
  | .sub => .R
  | .mul => .R
  | .truediv => .R
  | .eq => .C
  | .ne => .C
  | .gt => .C
  | .lt => .C
  | .ge => .C
  | .le => .C
  | .jmp => .J
  | .jmpf => .J
  | .jmpb => .J
  | .jeq => .J
  | .jne => .J
  | .hlt => .N

/-- The opcode of an instruction. -/
def Instr.opcode : Instr → Opcode
  | .nop => .nop
  | .load _ _ => .load
  | .add _ _ _ => .add
  | .sub _ _ _ => .sub
  | .mul _ _ _ => .mul
  | .truediv _ _ _ => .truediv
  | .eq _ _ _ => .eq
  | .ne _ _ _ => .ne
  | .gt _ _ _ => .gt
  | .lt _ _ _ => .lt
  | .ge _ _ _ => .ge
  | .le _ _ _ => .le
  | .jmp _ => .jmp
  | .jmpf _ => .jmpf
  | .jmpb _ => .jmpb
  | .jeq _ => .jeq
  | .jne _ => .jne
  | .hlt => .hlt

/-- An instruction's length in bytes; the opcode alone fixes it (R64). -/
def Instr.length (i : Instr) : Nat := i.opcode.format.length

/-- The registers an instruction reads, in the order it reads them (the table of R23). -/
def Instr.reads : Instr → List RegIdx
  | .nop => []
  | .load _ _ => []
  | .add a b _ => [a, b]
  | .sub a b _ => [a, b]
  | .mul a b _ => [a, b]
  | .truediv a b _ => [a, b]
  | .eq a b _ => [a, b]
  | .ne a b _ => [a, b]
  | .gt a b _ => [a, b]
  | .lt a b _ => [a, b]
  | .ge a b _ => [a, b]
  | .le a b _ => [a, b]
  | .jmp t => [t]
  | .jmpf o => [o]
  | .jmpb o => [o]
  | .jeq t => [t]
  | .jne t => [t]
  | .hlt => []

/-- The registers an instruction writes (the table of R23). -/
def Instr.writes : Instr → List RegIdx
  | .nop => []
  | .load d _ => [d]
  | .add _ _ d => [d]
  | .sub _ _ d => [d]
  | .mul _ _ d => [d]
  | .truediv _ _ d => [d]
  | .eq _ _ _ => []
  | .ne _ _ _ => []
  | .gt _ _ _ => []
  | .lt _ _ _ => []
  | .ge _ _ _ => []
  | .le _ _ _ => []
  | .jmp _ => []
  | .jmpf _ => []
  | .jmpb _ => []
  | .jeq _ => []
  | .jne _ => []
  | .hlt => []

/-- The registers an instruction names (R23); the padding byte names none. -/
def Instr.names (i : Instr) : List RegIdx := i.reads ++ i.writes

/-- The six comparisons, the only writers of the flag (R28). -/
def Instr.isComparison (i : Instr) : Bool := i.opcode.format = .C

/-- The five jumps. -/
def Instr.isJump (i : Instr) : Bool := i.opcode.format = .J

end Sys2Proof
end

