-- ==== Sys2Proof/Decode.lean ====
section
/-! DEFINITION. The opcode map, the instruction decoder and the encoder (spec 30_encoding.md R60 to R67).

The decoder is written once, over a cursor that hands it bytes: `decode` runs it on a list of bytes, and the machine's
fetch unit (Machine/Ops.lean) runs the same text on the program buffer through FetchByte and FetchWord. -/

namespace Sys2Proof

/-- OPCODE_MAP: the byte value of each opcode (R63).
DESIGN CHOICE of the spec, its decision D1: the source gives no numbers (log 1; unsafe against other builds). -/
def Opcode.value : Opcode → Byte
  | .nop => 0x00
  | .load => 0x01
  | .add => 0x02
  | .sub => 0x03
  | .mul => 0x04
  | .truediv => 0x05
  | .eq => 0x06
  | .ne => 0x07
  | .gt => 0x08
  | .lt => 0x09
  | .ge => 0x0A
  | .le => 0x0B
  | .jmp => 0x0C
  | .jmpf => 0x0D
  | .jmpb => 0x0E
  | .jeq => 0x0F
  | .jne => 0x10
  | .hlt => 0x11

/-- The rows of the opcode table (R63). -/
def Opcode.all : List Opcode :=
  [.nop, .load, .add, .sub, .mul, .truediv, .eq, .ne, .gt, .lt, .ge, .le, .jmp, .jmpf, .jmpb, .jeq, .jne, .hlt]

/-- The opcode a byte stands for; none for an unknown opcode (R65). -/
def Opcode.ofByte (b : Byte) : Option Opcode := Opcode.all.find? fun o => o.value == b

/-- Where the decoder takes its bytes from: `σ` is the place reached, `ε` why a read failed. -/
structure Cursor (σ ε : Type) where
  /-- read one byte and move past it -/
  nextByte : σ → Except ε (Byte × σ)
  /-- read a big-endian 16-bit word and move past it -/
  nextWord : σ → Except ε (Half × σ)
  /-- what an unknown opcode byte, already consumed, answers -/
  unknown  : Byte → σ → ε

/-- The opcode byte (R60, R65). -/
def Cursor.readOpcode {σ ε : Type} (cur : Cursor σ ε) (c : σ) : Except ε (Opcode × σ) := do
  let (b, c) ← cur.nextByte c
  match Opcode.ofByte b with
  | some op => .ok (op, c)
  | none => .error (cur.unknown b c)

/-- Format J: one register byte (R61). -/
def Cursor.readJ {σ ε : Type} (cur : Cursor σ ε) (mk : Byte → Instr) (c : σ) : Except ε (Instr × σ) := do
  let (r, c) ← cur.nextByte c
  .ok (mk r, c)

/-- Format I: the destination byte, then the big-endian immediate (R61, R100). -/
def Cursor.readI {σ ε : Type} (cur : Cursor σ ε) (mk : Byte → Half → Instr) (c : σ) : Except ε (Instr × σ) := do
  let (d, c) ← cur.nextByte c
  let (imm, c) ← cur.nextWord c
  .ok (mk d imm, c)

/-- Formats R and C: three operand bytes in order (R61, R114, R140). -/
def Cursor.read3 {σ ε : Type} (cur : Cursor σ ε) (mk : Byte → Byte → Byte → Instr) (c : σ) :
    Except ε (Instr × σ) := do
  let (x, c) ← cur.nextByte c
  let (y, c) ← cur.nextByte c
  let (z, c) ← cur.nextByte c
  .ok (mk x y z, c)

/-- The operands an opcode's handler consumes, in read order (R61, R63). -/
def Cursor.readOperands {σ ε : Type} (cur : Cursor σ ε) (op : Opcode) (c : σ) : Except ε (Instr × σ) :=
  match op with
  | .nop => .ok (.nop, c)
  | .load => cur.readI .load c
  | .add => cur.read3 .add c
  | .sub => cur.read3 .sub c
  | .mul => cur.read3 .mul c
  | .truediv => cur.read3 .truediv c
  | .eq => cur.read3 .eq c
  | .ne => cur.read3 .ne c
  | .gt => cur.read3 .gt c
  | .lt => cur.read3 .lt c
  | .ge => cur.read3 .ge c
  | .le => cur.read3 .le c
  | .jmp => cur.readJ .jmp c
  | .jmpf => cur.readJ .jmpf c
  | .jmpb => cur.readJ .jmpb c
  | .jeq => cur.readJ .jeq c
  | .jne => cur.readJ .jne c
  | .hlt => .ok (.hlt, c)

/-- One instruction: the opcode byte, then the operands the opcode fixes (R60, R64). -/
def Cursor.readInstr {σ ε : Type} (cur : Cursor σ ε) (c : σ) : Except ε (Instr × σ) := do
  let (op, c) ← cur.readOpcode c
  cur.readOperands op c

/-- Why a list of bytes is no instruction. -/
inductive DecodeError
  /-- the bytes end inside the instruction; `left` bytes were left unread (1 where a word was wanted, else 0) -/
  | outOfBytes (left : Nat)
  /-- the first byte is no opcode (R65) -/
  | unknownOpcode (b : Byte)
deriving DecidableEq, Repr

/-- The cursor over a list of bytes; a word is its two bytes, the first the more significant (R43). -/
def listCursor : Cursor (List Byte) DecodeError where
  nextByte
    | [] => .error (.outOfBytes 0)
    | b :: bs => .ok (b, bs)
  nextWord
    | [] => .error (.outOfBytes 0)
    | [_] => .error (.outOfBytes 1)
    | hi :: lo :: bs => .ok (hi ++ lo, bs)
  unknown b _ := .unknownOpcode b

/-- The decoder on a list of bytes: the instruction and the bytes after it, or the reason there is none. -/
def decode (bs : List Byte) : Except DecodeError (Instr × List Byte) := listCursor.readInstr bs

/-- The two bytes of an immediate, the more significant first (R43, R61). -/
def halfBytes (h : Half) : List Byte := [h.extractLsb' 8 8, h.extractLsb' 0 8]

/-- The operand bytes of an instruction, in encoding order (the tables of R61). -/
def Instr.operandBytes : Instr → List Byte
  | .nop => []
  | .load d imm => d :: halfBytes imm
  | .add a b d => [a, b, d]
  | .sub a b d => [a, b, d]
  | .mul a b d => [a, b, d]
  | .truediv a b d => [a, b, d]
  | .eq a b p => [a, b, p]
  | .ne a b p => [a, b, p]
  | .gt a b p => [a, b, p]
  | .lt a b p => [a, b, p]
  | .ge a b p => [a, b, p]
  | .le a b p => [a, b, p]
  | .jmp r => [r]
  | .jmpf r => [r]
  | .jmpb r => [r]
  | .jeq r => [r]
  | .jne r => [r]
  | .hlt => []

/-- The encoder: the bytes of an instruction in address order (R60, R61). -/
def encode (i : Instr) : List Byte := i.opcode.value :: i.operandBytes

/-- The bytes of the word `w` of `nbits` bits, numbered as spec/opcode_table.json numbers it: the instruction read as
one big-endian integer (R61), so the first byte is its most significant. Zero bytes follow up to the longest
instruction. DEDUCED (log 25). -/
def tableBytes (nbits w : Nat) : List Byte :=
  let n := nbits / 8
  (List.range n).map (fun k => BitVec.ofNat 8 (w >>> (8 * (n - 1 - k)))) ++
    List.replicate (Config.maxInstrLength - n) 0

/-- The instruction the decoder reads from a word numbered as the opcode table numbers it. -/
def decodeTableWord (nbits w : Nat) : Option Instr :=
  match decode (tableBytes nbits w) with
  | .ok (i, _) => some i
  | .error _ => none

end Sys2Proof
end

