-- ==== Sys2Proof/Machine/State.lean ====
section
/-! DEFINITION. The state of one CORE instance (spec 10_state.md R20 to R34), why a step could stop, and the state
after reset (70_reset_and_hazards.md R230). -/

namespace Sys2Proof.Machine

/-- The six faults of the CORE (60_exceptions.md R200). Each is a status the machine takes, a next state. -/
inductive FaultCause
  /-- a register index ≥ N is read or written; detail: the index -/
  | registerNotFound
  /-- an operand read needs bytes beyond the end of the program; detail: the pc of the failed read -/
  | outOfBounds
  /-- the opcode byte is not in the table; detail: the byte -/
  | unknownOpcode
  /-- the divisor of TRUEDIV is a zero; detail: the divisor's register index -/
  | divisionByZero
  /-- a taken jump's target is not an integer in 0 to 2^64 − 1; detail: the operand's register index -/
  | badJumpTarget
  /-- an arithmetic result rounds to an infinity; detail: the destination index -/
  | arithmeticOverflow
deriving DecidableEq, Repr

/-- The status register (R29). Codes 9 to 255 are never held, by type. -/
inductive Status
  /-- code 0: the next step executes an instruction -/
  | running
  /-- code 1: HLT was executed -/
  | halted
  /-- code 2: an opcode fetch found pc ≥ L -/
  | exhausted
  /-- codes 3 to 8: a fatal error -/
  | fault (cause : FaultCause)
deriving DecidableEq, Repr

/-- The information of a `raise` (00_scope.md R12): which fault, and its detail. -/
structure Raise where
  cause : FaultCause
  info  : Word
deriving DecidableEq, Repr

/-- The program buffer's bytes as plain data: (address, byte) cells in rising order of address. The canonical form is
`Memory.wf`, the reading `Memory.read` (Machine/Ops.lean). -/
abbrev Memory := List Host.Cell

/-- The state of one CORE instance. `regs` to `faultDetail` are the architectural state of R20; `prog` and `progLen`
are the program buffer PROG and its length L, fixed at construction (R34); N, fixed too, is the length of `regs`. -/
structure State where
  /-- the register file: slot i is element i, N is the length (R21) -/
  regs        : List F64
  /-- the byte address of the next byte to be fetched (R27) -/
  pc          : Word
  /-- the comparison flag (R28) -/
  flag        : Bool
  /-- the run state (R29) -/
  status      : Status
  /-- the fault record: pc_start of the faulting instruction (R30) -/
  faultPc     : Word
  /-- the fault record: the information of the raise (R30) -/
  faultDetail : Word
  /-- PROG, the bytes at addresses below `progLen` (20_memory.md R40) -/
  prog        : Memory
  /-- PROG_LEN, L: every 64-bit value is legal (00_scope.md R9) -/
  progLen     : Word
deriving DecidableEq, Repr

/-- Why a step of the model could stop with a fault. There is no such reason: every fault of the CORE is a status the
machine takes and the host reads, so a next state (60_exceptions.md R202, R206), and a step in a terminal status
returns with nothing changed (30_encoding.md R69). Log 27; safe. -/
inductive Fault
deriving DecidableEq, Repr

/-- Why the model could refuse an instruction. No meaning of this model refuses. -/
inductive Refusal
  /-- raised by an arm of `exec` whose instruction has no meaning yet (there is none); safe -/
  | notModelled (mnemonic : String)
deriving DecidableEq, Repr

/-- An instance right after construction with `n` registers, over a program given as memory and length (R230). -/
def State.initial (prog : Memory) (progLen : Word) (n : Nat) : State where
  regs := List.replicate n F64.posZero
  pc := 0
  flag := false
  status := .running
  faultPc := 0
  faultDetail := 0
  prog := prog
  progLen := progLen

/-- The machine right after reset: CONSTRUCT with the empty program and the default N = 32 (R9, R230).
DESIGN CHOICE: the spec's CONSTRUCT takes a program and a register count, the host's interface takes none (log 24). -/
def State.reset : State := State.initial [] 0 Config.defaultRegCount

end Sys2Proof.Machine
end

