-- ==== Sys2Proof/Machine/Ops.lean ====
section
/-! DEFINITION. The named operations over the program buffer, the fetch unit, the register file and the fault record
(spec 20_memory.md R40 to R48; 10_state.md R22, R27, R30; 30_encoding.md R69, R70; 60_exceptions.md R202). -/

namespace Sys2Proof.Machine

/-! ### The program buffer -/

/-- What an address with no cell reads as. A program's zero bytes are held by listing nothing; no address at or beyond
L is ever read (R42), so this is a matter of form and says nothing of the hardware (log 23). -/
def unlistedByte : Byte := 0x00

/-- The byte at one address. -/
def Memory.read : Memory → Nat → Byte
  | [], _ => unlistedByte
  | (k, b) :: m, a => if k = a then b else Memory.read m a

/-- The canonical form: addresses strictly rising, and no cell equal to what an unlisted address reads as. -/
abbrev Memory.wf (m : Memory) : Prop := m.Pairwise (fun x y => x.1 < y.1) ∧ ∀ c ∈ m, c.2 ≠ unlistedByte

/-- A cell for the byte `b` at `a` in front of `m`; none for the unlisted byte. -/
def Memory.cons (a : Nat) (b : Byte) (m : Memory) : Memory := if b = unlistedByte then m else (a, b) :: m

/-- Put one byte at an address. No instruction does this (R41): it serves CONSTRUCT and loading a program. -/
def Memory.write : Memory → Nat → Byte → Memory
  | [], a, b => Memory.cons a b []
  | (k, c) :: m, a, b =>
    if a < k then Memory.cons a b ((k, c) :: m)
    else if a = k then Memory.cons a b m
    else (k, c) :: Memory.write m a b

/-- Put consecutive bytes from an address on. -/
def Memory.writeBytes (m : Memory) (a : Nat) : List Byte → Memory
  | [] => m
  | b :: bs => Memory.writeBytes (Memory.write m a b) (a + 1) bs

/-- The memory that holds a sequence of bytes from address 0 on (R40). -/
def Memory.ofBytes (bs : List Byte) : Memory := Memory.writeBytes [] 0 bs

/-- `MemRead(addr, n)`: `n` consecutive bytes as a big-endian unsigned integer (R42). -/
def memRead (m : Memory) (addr : Nat) : Nat → Nat
  | 0 => 0
  | n + 1 => memRead m addr n * 256 + (m.read (addr + n)).toNat

/-! ### The fetch unit -/

/-- `pc <- t` (R12). -/
def State.setPc (s : State) (t : Word) : State := { s with pc := t }

/-- The state with pc `n` bytes further (R27). -/
def State.advance (s : State) (n : Nat) : State := s.setPc (s.pc + BitVec.ofNat 64 n)

/-- `raise OutOfBounds(pc)` by a fetch, with the state it leaves: pc is unchanged by the failed read (R44, R45). -/
def State.outOfBounds (s : State) : Raise × State := (⟨.outOfBounds, s.pc⟩, s)

/-- `FetchByte()` (R44). -/
def State.fetchByte (s : State) : Except (Raise × State) (Byte × State) :=
  if s.progLen ≤ s.pc then .error s.outOfBounds
  else .ok (BitVec.ofNat 8 (memRead s.prog s.pc.toNat 1), s.advance 1)

/-- `FetchWord()`: all or nothing, the bound computed without wrap (R45). -/
def State.fetchWord (s : State) : Except (Raise × State) (Half × State) :=
  if s.progLen.toNat < s.pc.toNat + 2 then .error s.outOfBounds
  else .ok (BitVec.ofNat 16 (memRead s.prog s.pc.toNat 2), s.advance 2)

/-- The decoder's cursor over the machine: FetchByte, FetchWord, and `raise UnknownOpcode(op)` once the opcode byte is
consumed (R65, R69). -/
def fetchCursor : Cursor State (Raise × State) where
  nextByte := State.fetchByte
  nextWord := State.fetchWord
  unknown b s := (⟨.unknownOpcode, b.setWidth 64⟩, s)

/-- Fetch and decode one instruction at the pc: the instruction and the state with pc past it, or the raise and the
state with pc past the bytes that were fetched. -/
def State.fetchInstr (s : State) : Except (Raise × State) (Instr × State) := fetchCursor.readInstr s

/-- The bytes that stand at the pc: as many as the program has there, at most the longest instruction's. -/
def State.bytesAtPc (s : State) : List Byte :=
  (List.range (min Config.maxInstrLength (s.progLen.toNat - s.pc.toNat))).map fun k => s.prog.read (s.pc.toNat + k)

/-! ### Status and faults -/

/-- Taking a fault: `raise E(info)` in an instruction that began at `pcStart`, in the state the statements before the
raise left (R202). -/
def State.takeFault (s : State) (pcStart : Word) (r : Raise) : State :=
  { s with status := .fault r.cause, faultPc := pcStart, faultDetail := r.info }

/-- The end-of-buffer detector's stop: only `status` changes (R70). -/
def State.exhaust (s : State) : State := { s with status := .exhausted }

/-- The halt detector's stop (R191). -/
def State.halt (s : State) : State := { s with status := .halted }

/-- The 8-bit code of a status (R29, R200). -/
def Status.code : Status → BitVec 8
  | .running => 0
  | .halted => 1
  | .exhausted => 2
  | .fault .registerNotFound => 3
  | .fault .outOfBounds => 4
  | .fault .unknownOpcode => 5
  | .fault .divisionByZero => 6
  | .fault .badJumpTarget => 7
  | .fault .arithmeticOverflow => 8

/-! ### The register file -/

/-- N, the number of register slots (R9, R21). -/
def State.regCount (s : State) : Nat := s.regs.length

/-- `x[i]`, the checked register read (R22). -/
def State.readReg (s : State) (i : RegIdx) : Except Raise F64 :=
  match s.regs[i.toNat]? with
  | some v => .ok v
  | none => .error ⟨.registerNotFound, i.setWidth 64⟩

/-- Slot `i` becomes `v`; nothing else changes (R24). -/
def State.setReg (s : State) (i : RegIdx) (v : F64) : State := { s with regs := s.regs.set i.toNat v }

/-- `x[i] <- v`, the checked register write (R22). -/
def State.writeReg (s : State) (i : RegIdx) (v : F64) : Except Raise State :=
  if i.toNat < s.regCount then .ok (s.setReg i v)
  else .error ⟨.registerNotFound, i.setWidth 64⟩

/-! ### Running one instruction -/

/-- Run an instruction's statements after its operand fetches, from pc_next on, and take the fault they raise, if any.
Of an instruction's updates only the pc's advances come before a raise (R202), so the fault is taken in the state at
pc_next. `s` is the state at pc_start and `len` the instruction's length. -/
def State.runBody (s : State) (len : Nat) (body : State → Except Raise State) :
    Host.Outcome State Fault Refusal :=
  match body (s.advance len) with
  | .ok t => .next t
  | .error r => .next ((s.advance len).takeFault s.pc r)

/-- The instruction cycle (R69), over the meaning `run` of a decoded instruction: a terminal status is sticky; at or
beyond the end of the program the run is exhausted (R70); else one instruction is fetched and run, or the fetch's
fault taken. `run` takes the state at pc_start. -/
def cycle (run : Instr → State → Host.Outcome State Fault Refusal) (s : State) : Host.Outcome State Fault Refusal :=
  if s.status = .running then
    if s.progLen ≤ s.pc then .next s.exhaust
    else
      match s.fetchInstr with
      | .ok (i, _) => run i s
      | .error (r, t) => .next (t.takeFault s.pc r)
  else .next s

/-- Load an instruction's bytes where the next fetch reads them: the bytes at pc on, the program at least that long,
and the status RUNNING, without which no fetch happens (log 24). -/
def State.loadAtPc (s : State) (bs : List Byte) : State :=
  let len := BitVec.ofNat 64 (s.pc.toNat + bs.length)
  { s with
    status := .running
    prog := s.prog.writeBytes s.pc.toNat bs
    progLen := if s.progLen < len then len else s.progLen }

end Sys2Proof.Machine
end

