-- ==== Sys2Proof/Machine/Operands.lean ====
section
/-! DEFINITION. The operand forms: the immediate's value and the jump targets (spec 30_encoding.md R62;
44_control_transfer.md R160). Register operands are `State.readReg` and `State.writeReg` (Machine/Ops.lean). -/

namespace Sys2Proof.Machine

/-- The immediate operand's value, `f64(zext_16(imm))` (R62, R100). -/
def immValue (imm : Half) : F64 := F64.ofNat imm.toNat

/-- `ToPos(q, r)`: the exact target as a position, or `raise BadJumpTarget(r)` (R160). -/
def toPos (q : Rat) (r : RegIdx) : Except Raise Word :=
  if q.den = 1 ∧ 0 ≤ q.num ∧ q.num ≤ 2 ^ 64 - 1 then .ok (BitVec.ofNat 64 q.num.toNat)
  else .error ⟨.badJumpTarget, r.setWidth 64⟩

/-- An address as an exact number, for the relative jumps (R160: "computed exactly, with no rounding"). -/
def addrValue (a : Word) : Rat := (a.toNat : Rat)

end Sys2Proof.Machine
end

