-- ==== Sys2Proof/Machine/Arith.lean ====
section
/-! DEFINITION. The arithmetic unit: ADD, SUB, MUL, TRUEDIV (spec 42_arithmetic.md R114, R120 to R123). -/

namespace Sys2Proof.Machine

/-- The shared arithmetic handler after its operand fetches: read `a`, read `b`, check a zero divisor, compute, check
that the result is finite, write `d` (R114; the order is D13, log 13). -/
def arith (op : ArithOp) (a b d : RegIdx) (s : State) : Except Raise State := do
  let va ← s.readReg a
  let vb ← s.readReg b
  if op = .fdiv ∧ vb.real = 0 then
    .error ⟨.divisionByZero, b.setWidth 64⟩
  else if (op.apply va vb).isFinite then
    s.writeReg d (op.apply va vb)
  else
    .error ⟨.arithmeticOverflow, d.setWidth 64⟩

/-- `ADD a, b, dst` (R120). -/
def execAdd (a b dst : RegIdx) (s : State) : Host.Outcome State Fault Refusal := s.runBody 4 (arith .fadd a b dst)

/-- `SUB a, b, dst` (R121). -/
def execSub (a b dst : RegIdx) (s : State) : Host.Outcome State Fault Refusal := s.runBody 4 (arith .fsub a b dst)

/-- `MUL a, b, dst` (R122). -/
def execMul (a b dst : RegIdx) (s : State) : Host.Outcome State Fault Refusal := s.runBody 4 (arith .fmul a b dst)

/-- `TRUEDIV a, b, dst` (R123). -/
def execTruediv (a b dst : RegIdx) (s : State) : Host.Outcome State Fault Refusal :=
  s.runBody 4 (arith .fdiv a b dst)

end Sys2Proof.Machine
end

