-- ==== Sys2Proof/Machine/Flags.lean ====
section
/-! DEFINITION. The flag computations: the six relations of the comparisons (spec 43_compare.md R140 to R146). The
arithmetic unit keeps no flag (42_arithmetic.md R115). -/

namespace Sys2Proof.Machine

/-- The relation the shared comparison handler is parameterised by (R140). -/
inductive Cmp
  | eq | ne | gt | lt | ge | le
deriving DecidableEq, Repr

/-- The relation on the exact real values, the first operand on the left (R140, R143). -/
def Cmp.holds (c : Cmp) (x y : Rat) : Bool :=
  match c with
  | .eq => x = y
  | .ne => x ≠ y
  | .gt => x > y
  | .lt => x < y
  | .ge => x ≥ y
  | .le => x ≤ y

/-- `flag <- b`: nothing but the flag changes (R28). -/
def State.setFlag (s : State) (b : Bool) : State := { s with flag := b }

end Sys2Proof.Machine
end

