-- ==== Sys2Proof/Machine/Compare.lean ====
section
/-! DEFINITION. The comparisons: EQ, NE, GT, LT, GE, LE (spec 43_compare.md R140 to R146). The padding byte is consumed
by the fetch and reaches no meaning (R140). -/

namespace Sys2Proof.Machine

/-- The shared comparison handler after its operand fetches: read `a`, read `b`, write the flag (R140). -/
def compareRegs (c : Cmp) (a b : RegIdx) (s : State) : Except Raise State := do
  let va ← s.readReg a
  let vb ← s.readReg b
  .ok (s.setFlag (c.holds va.real vb.real))

/-- `EQ a, b` (R141). -/
def execEq (a b : RegIdx) (s : State) : Host.Outcome State Fault Refusal := s.runBody 4 (compareRegs .eq a b)

/-- `NE a, b` (R142). -/
def execNe (a b : RegIdx) (s : State) : Host.Outcome State Fault Refusal := s.runBody 4 (compareRegs .ne a b)

/-- `GT a, b` (R143). -/
def execGt (a b : RegIdx) (s : State) : Host.Outcome State Fault Refusal := s.runBody 4 (compareRegs .gt a b)

/-- `LT a, b` (R144). -/
def execLt (a b : RegIdx) (s : State) : Host.Outcome State Fault Refusal := s.runBody 4 (compareRegs .lt a b)

/-- `GE a, b` (R145). -/
def execGe (a b : RegIdx) (s : State) : Host.Outcome State Fault Refusal := s.runBody 4 (compareRegs .ge a b)

/-- `LE a, b` (R146). -/
def execLe (a b : RegIdx) (s : State) : Host.Outcome State Fault Refusal := s.runBody 4 (compareRegs .le a b)

end Sys2Proof.Machine
end

