-- ==== Sys2Proof/Machine/Jump.lean ====
section
/-! DEFINITION. Control transfer: JMP, JMPF, JMPB, JEQ, JNE (spec 44_control_transfer.md R160 to R167). -/

namespace Sys2Proof.Machine

/-- `pc <- ToPos(q, r)` (R160). -/
def jumpTo (q : Rat) (r : RegIdx) (s : State) : Except Raise State := do
  let p ← toPos q r
  .ok (s.setPc p)

/-- An absolute jump that is taken when `taken` holds of the flag; the register is read and checked either way
(R161, R164, R165; the check of an untaken jump is D15, log 15). -/
def jumpAbsolute (taken : Bool → Bool) (t : RegIdx) (s : State) : Except Raise State := do
  let v ← s.readReg t
  if taken s.flag then jumpTo v.real t s else .ok s

/-- A relative jump: the target is computed from pc_next, where the body's pc stands (R162, R163). -/
def jumpRelative (target : Rat → Rat → Rat) (o : RegIdx) (s : State) : Except Raise State := do
  let v ← s.readReg o
  jumpTo (target (addrValue s.pc) v.real) o s

/-- `JMP target` (R161). -/
def execJmp (t : RegIdx) (s : State) : Host.Outcome State Fault Refusal := s.runBody 2 (jumpAbsolute (fun _ => true) t)

/-- `JMPF offset`: forward from pc_next (R162). -/
def execJmpf (o : RegIdx) (s : State) : Host.Outcome State Fault Refusal :=
  s.runBody 2 (jumpRelative (fun pc v => pc + v) o)

/-- `JMPB offset`: backward from pc_next (R163). -/
def execJmpb (o : RegIdx) (s : State) : Host.Outcome State Fault Refusal :=
  s.runBody 2 (jumpRelative (fun pc v => pc - v) o)

/-- `JEQ target`: taken when the flag is true (R164). -/
def execJeq (t : RegIdx) (s : State) : Host.Outcome State Fault Refusal := s.runBody 2 (jumpAbsolute (fun f => f) t)

/-- `JNE target`: taken when the flag is false (R165). -/
def execJne (t : RegIdx) (s : State) : Host.Outcome State Fault Refusal := s.runBody 2 (jumpAbsolute (fun f => !f) t)

end Sys2Proof.Machine
end

