-- ==== Sys2Proof/Machine/Load.lean ====
section
/-! DEFINITION. LOAD (spec 41_load.md R100). -/

namespace Sys2Proof.Machine

/-- `LOAD dst, imm`: `x[dst] <- f64(zext_16(imm))` (R100). -/
def execLoad (dst : RegIdx) (imm : Half) (s : State) : Host.Outcome State Fault Refusal :=
  s.runBody 4 fun s => s.writeReg dst (immValue imm)

end Sys2Proof.Machine
end

