-- ==== Sys2Proof/Machine/System.lean ====
section
/-! DEFINITION. NOP and HLT (spec 45_system.md R190, R191). -/

namespace Sys2Proof.Machine

/-- `NOP`: nothing but the pc's advance (R190). -/
def execNop (s : State) : Host.Outcome State Fault Refusal := s.runBody 1 fun s => .ok s

/-- `HLT`: `status <- HALTED`, pc left after the HLT byte (R191). -/
def execHlt (s : State) : Host.Outcome State Fault Refusal := s.runBody 1 fun s => .ok s.halt

end Sys2Proof.Machine
end

