-- ==== Sys2Proof/Machine/Dispatch.lean ====
section
/-! DEFINITION. The dispatch: one arm per constructor of Instr, in the order of opcode_table.json. The state is the one
at pc_start, where the opcode byte stands. -/

namespace Sys2Proof.Machine

/-- The effect of a decoded instruction that begins at `s.pc`. -/
def exec (i : Instr) (s : State) : Host.Outcome State Fault Refusal :=
  match i with
  | .nop => Sys2Proof.Machine.execNop s
  | .load dst imm => Sys2Proof.Machine.execLoad dst imm s
  | .add a b dst => Sys2Proof.Machine.execAdd a b dst s
  | .sub a b dst => Sys2Proof.Machine.execSub a b dst s
  | .mul a b dst => Sys2Proof.Machine.execMul a b dst s
  | .truediv a b dst => Sys2Proof.Machine.execTruediv a b dst s
  | .eq a b _ => Sys2Proof.Machine.execEq a b s
  | .ne a b _ => Sys2Proof.Machine.execNe a b s
  | .gt a b _ => Sys2Proof.Machine.execGt a b s
  | .lt a b _ => Sys2Proof.Machine.execLt a b s
  | .ge a b _ => Sys2Proof.Machine.execGe a b s
  | .le a b _ => Sys2Proof.Machine.execLe a b s
  | .jmp t => Sys2Proof.Machine.execJmp t s
  | .jmpf o => Sys2Proof.Machine.execJmpf o s
  | .jmpb o => Sys2Proof.Machine.execJmpb o s
  | .jeq t => Sys2Proof.Machine.execJeq t s
  | .jne t => Sys2Proof.Machine.execJne t s
  | .hlt => Sys2Proof.Machine.execHlt s

end Sys2Proof.Machine
end

