-- ==== Sys2Proof/Machine/Step.lean ====
section
/-! DEFINITION. One step of the machine, the host's STEP (spec 30_encoding.md R69), and where the host's check puts an
instruction word. -/

namespace Sys2Proof.Machine

/-- One step (R69). -/
def step (s : State) : Host.Outcome State Fault Refusal := cycle exec s

/-- `s` with the instruction whose word is `w` stored where the next step fetches (log 24, log 25). -/
def State.withFetchWord (s : State) (nbits w : Nat) : State := s.loadAtPc (tableBytes nbits w)

end Sys2Proof.Machine
end

