-- ==== Sys2Proof/WellFormed.lean ====
section
/-! DEFINITION. What the model checks of an instruction and of a construction before it runs.

Encodability needs no check: every operand field is a bit vector of its field's width, and within a legal opcode no
operand value is illegal at decode time (spec 30_encoding.md R66). What is left is whether the registers an
instruction names exist in a CORE of N registers (10_state.md R21, R22; an instruction that fails this check still
runs, and faults with RegisterNotFound), and whether the arguments of CONSTRUCT are legal (70_reset_and_hazards.md
R231). -/

namespace Sys2Proof

/-- Every register the instruction names is below N (R21, R22). -/
def Instr.wellFormed (n : Nat) (i : Instr) : Bool := i.names.all fun r => r.toNat < n

/-- CONSTRUCT accepts N registers (R231: "Every N from 0 to 256 is accepted"). -/
def legalRegCount (n : Nat) : Bool := n ≤ Config.maxRegCount

/-- CONSTRUCT accepts a program of L bytes (R231). -/
def legalProgLen (l : Nat) : Bool := l ≤ Config.maxProgLen

end Sys2Proof
end

