-- ==== Sys2Proof/Machine/HostInterface.lean ====
section
/-! DEFINITION. The host's operations on an instance, each one transaction between steps (spec 10_state.md R35 to R37;
30_encoding.md R71; 70_reset_and_hazards.md R230, R231). STEP is `step`. -/

namespace Sys2Proof.Machine

/-- The errors of the host interface. They are returned to the host and change no state (R215, R231). Safe. -/
inductive HostError
  /-- READ_REG or WRITE_REG with an index ≥ N (R36) -/
  | registerNotFound (i : RegIdx)
  /-- WRITE_REG of an infinity or a NaN (R37) -/
  | notFinite
  /-- CONSTRUCT with N > 256 (R231) -/
  | tooManyRegisters
  /-- CONSTRUCT with L > 2^64 − 1 (R231) -/
  | programTooLong
deriving DecidableEq, Repr

/-- CONSTRUCT(PROG, N), the only reset (R230, R231). -/
def construct (prog : List Byte) (n : Nat := Config.defaultRegCount) : Except HostError State :=
  if legalRegCount n then
    if legalProgLen prog.length then .ok (State.initial (Memory.ofBytes prog) (BitVec.ofNat 64 prog.length) n)
    else .error .programTooLong
  else .error .tooManyRegisters

/-- READ_REG(i) (R36). -/
def hostReadReg (s : State) (i : RegIdx) : Except HostError F64 :=
  match s.readReg i with
  | .ok v => .ok v
  | .error _ => .error (.registerNotFound i)

/-- WRITE_REG(i, v): the state after it, or the error, and then the host's state is the old one (R36, R37). The order
of the two checks is the model's DESIGN CHOICE (log 28). -/
def hostWriteReg (s : State) (i : RegIdx) (v : F64) : Except HostError State :=
  if v.isFinite then
    match s.writeReg i v with
    | .ok t => .ok t
    | .error _ => .error (.registerNotFound i)
  else .error .notFinite

/-- READ_PC (R35). -/
def hostReadPc (s : State) : Word := s.pc

/-- READ_FLAG (R35, D18). -/
def hostReadFlag (s : State) : Bool := s.flag

/-- READ_STATUS: the status code and the fault record (R35). -/
def hostReadStatus (s : State) : BitVec 8 × Word × Word := (s.status.code, s.faultPc, s.faultDetail)

/-- RUN, cut after at most `k` steps: it steps while the status is RUNNING (R71). The core itself imposes no limit; a run
that ends is one that ends for some `k` (log 26). -/
def runFor : Nat → State → Host.Outcome State Fault Refusal
  | 0, s => .next s
  | k + 1, s =>
    if s.status = .running then
      match step s with
      | .next t => runFor k t
      | .fault r => .fault r
      | .refused r => .refused r
    else .next s

end Sys2Proof.Machine
end

