-- ==== Sys2Proof/Safety.lean ====
section
/-! DEFINITION. The terms claims use: correct rounding, the invariant of every instance, a coherent fault record, and
the ends of a run (spec 42_arithmetic.md R111; 10_state.md R25, R27, R29, R30; 60_exceptions.md R200; 30_encoding.md
R73). -/

namespace Sys2Proof

/-- From this magnitude on a rounding is an infinity (R111). -/
def overflowThreshold : Rat := 2 ^ 1024 - 2 ^ 970

/-- `r` is `round(q)` as R111 words it, for a `q` below the overflow threshold: the finite binary64 number nearest to the
exact `q`, and on a tie the one with an even last fraction bit. -/
structure F64.IsRoundingOf (r : F64) (q : Rat) : Prop where
  finite   : r.isFinite = true
  nearest  : ∀ z : F64, z.isFinite = true → |r.real - q| ≤ |z.real - q|
  tiesEven : ∀ z : F64, z.isFinite = true → |z.real - q| = |r.real - q| → z.real ≠ r.real → r.frac.getLsbD 0 = false

namespace Machine

/-- What holds of every instance between host operations: at most 256 slots (R21), every slot finite (R25), the program
buffer in canonical form and inside L (R40), and the fault record zero while no fault was taken (R30). -/
structure State.Inv (s : State) : Prop where
  regCount : s.regs.length ≤ Config.maxRegCount
  finite   : ∀ v ∈ s.regs, v.isFinite = true
  progWf   : s.prog.wf
  inside   : ∀ c ∈ s.prog, c.1 < s.progLen.toNat
  noRecord : (∀ c, s.status ≠ .fault c) → s.faultPc = 0 ∧ s.faultDetail = 0

/-- The fault record agrees with the fault taken, as the table of R200 and the rule of R202 have it: fault_pc is the
address of a byte of the program, the detail is of the kind its fault names, and pc stands where the fetches before
the raise left it. -/
def State.FaultRecordCoherent (s : State) : Prop :=
  match s.status with
  | .fault .registerNotFound =>
    s.faultPc < s.progLen ∧ s.regCount ≤ s.faultDetail.toNat ∧ s.faultDetail.toNat < 256 ∧
      (s.pc.toNat = s.faultPc.toNat + 2 ∨ s.pc.toNat = s.faultPc.toNat + 4)
  | .fault .outOfBounds =>
    s.faultPc < s.progLen ∧ s.faultDetail = s.pc ∧ s.faultPc < s.pc ∧ s.pc ≤ s.progLen ∧
      s.progLen.toNat < s.faultPc.toNat + 4
  | .fault .unknownOpcode =>
    s.faultPc < s.progLen ∧ s.pc.toNat = s.faultPc.toNat + 1 ∧
      s.faultDetail.toNat = (s.prog.read s.faultPc.toNat).toNat ∧ 0x12 ≤ s.faultDetail.toNat
  | .fault .divisionByZero =>
    s.faultPc < s.progLen ∧ s.pc.toNat = s.faultPc.toNat + 4 ∧ s.faultDetail.toNat < s.regCount
  | .fault .badJumpTarget =>
    s.faultPc < s.progLen ∧ s.pc.toNat = s.faultPc.toNat + 2 ∧ s.faultDetail.toNat < s.regCount
  | .fault .arithmeticOverflow =>
    s.faultPc < s.progLen ∧ s.pc.toNat = s.faultPc.toNat + 4 ∧ s.faultDetail.toNat < 256
  | .running => True
  | .halted => True
  | .exhausted => True

/-- The state after an instruction of `len` bytes at pc raised a fault once its operands were fetched (R202): nothing
but pc, the status and the fault record differs. -/
def State.faulted (s : State) (len : Nat) (cause : FaultCause) (info : Word) : State :=
  { s with pc := s.pc + BitVec.ofNat 64 len, status := .fault cause, faultPc := s.pc, faultDetail := info }

/-- The machine is about to fetch the opcode byte of `op`, and the program ends inside the `len` bytes its instruction
needs. -/
def State.EndsInside (s : State) (op : Opcode) (len : Nat) : Prop :=
  s.status = .running ∧ s.pc < s.progLen ∧ s.prog.read s.pc.toNat = op.value ∧ s.progLen.toNat < s.pc.toNat + len

/-- The state after a one-byte operand fetch found the end of the program, at address L (R44, R202). -/
def State.truncated (s : State) : State :=
  { s with pc := s.progLen, status := .fault .outOfBounds, faultPc := s.pc, faultDetail := s.progLen }

/-- The machine is about to fetch exactly these bytes (R60: byte k of an instruction is at pc_start + k). -/
def State.Fetches (s : State) (bs : List Byte) : Prop :=
  s.status = .running ∧ s.pc.toNat + bs.length ≤ s.progLen.toNat ∧
    ∀ k b, bs[k]? = some b → s.prog.read (s.pc.toNat + k) = b

/-- What the rule of an arithmetic instruction says of `i`, encoded in format R with the opcode `op`, in `s` (R114): the operand bytes, then
the two reads, then overflow, then the write of `d` with the rounded exact result and the sign bit `sign`. The clause
for a zero divisor is TRUEDIV's alone and stands outside; `defined` is the operands it leaves. -/
structure ArithRule (s : State) (i : Instr) (op : Opcode) (a b d : RegIdx) (exact : Rat → Rat → Rat)
    (sign : F64 → F64 → Bool) (defined : Rat → Prop) : Prop where
  encoding   : encode i = [op.value, a, b, d]
  truncates  : s.EndsInside op 4 → step s = .next s.truncated
  missingA   : s.regCount ≤ a.toNat → exec i s = .next (s.faulted 4 .registerNotFound (a.setWidth 64))
  missingB   : a.toNat < s.regCount → s.regCount ≤ b.toNat →
    exec i s = .next (s.faulted 4 .registerNotFound (b.setWidth 64))
  overflows  : ∀ x y, s.regs[a.toNat]? = some x → s.regs[b.toNat]? = some y → defined y.real →
    overflowThreshold ≤ |exact x.real y.real| →
    exec i s = .next (s.faulted 4 .arithmeticOverflow (d.setWidth 64))
  missingD   : ∀ x y, s.regs[a.toNat]? = some x → s.regs[b.toNat]? = some y → defined y.real →
    |exact x.real y.real| < overflowThreshold → s.regCount ≤ d.toNat →
    exec i s = .next (s.faulted 4 .registerNotFound (d.setWidth 64))
  completes  : ∀ x y, s.regs[a.toNat]? = some x → s.regs[b.toNat]? = some y → defined y.real →
    |exact x.real y.real| < overflowThreshold → d.toNat < s.regCount →
    ∃ r : F64, r.IsRoundingOf (exact x.real y.real) ∧ r.neg = sign x y ∧
      exec i s = .next { s with pc := s.pc + 4, regs := s.regs.set d.toNat r }

/-- What the rule of a comparison says of `i`, encoded in format C with the opcode `op`, in `s` (R140): the flag becomes the relation of the
exact values, whatever the padding byte. -/
structure ComparisonRule (s : State) (i : Instr) (op : Opcode) (a b : RegIdx) (pad : Byte) (rel : Rat → Rat → Prop) :
    Prop where
  encoding  : encode i = [op.value, a, b, pad]
  truncates : s.EndsInside op 4 → step s = .next s.truncated
  missingA  : s.regCount ≤ a.toNat → exec i s = .next (s.faulted 4 .registerNotFound (a.setWidth 64))
  missingB  : a.toNat < s.regCount → s.regCount ≤ b.toNat →
    exec i s = .next (s.faulted 4 .registerNotFound (b.setWidth 64))
  completes : ∀ x y, s.regs[a.toNat]? = some x → s.regs[b.toNat]? = some y →
    ∃ f : Bool, (f = true ↔ rel x.real y.real) ∧ exec i s = .next { s with pc := s.pc + 4, flag := f }

/-- What the rule of a jump says of `i`, encoded in format J with the opcode `op`, in `s`, when it is taken (R160): `target` is the exact target,
from the register's value. -/
structure TakenJumpRule (s : State) (i : Instr) (op : Opcode) (r : RegIdx) (target : Rat → Rat) : Prop where
  encoding  : encode i = [op.value, r]
  truncates : s.EndsInside op 2 → step s = .next s.truncated
  missing   : s.regCount ≤ r.toNat → exec i s = .next (s.faulted 2 .registerNotFound (r.setWidth 64))
  badTarget : ∀ v, s.regs[r.toNat]? = some v → (∀ k : Nat, k < 2 ^ 64 → target v.real ≠ k) →
    exec i s = .next (s.faulted 2 .badJumpTarget (r.setWidth 64))
  completes : ∀ v, s.regs[r.toNat]? = some v → ∀ k : Nat, k < 2 ^ 64 → target v.real = k →
    exec i s = .next { s with pc := BitVec.ofNat 64 k }

/-- A clean end of a run (R73). -/
def Status.isCleanEnd : Status → Bool
  | .halted => true
  | .exhausted => true
  | .running => false
  | .fault _ => false

/-- An error end of a run (R73). -/
def Status.isErrorEnd : Status → Bool
  | .fault _ => true
  | .running => false
  | .halted => false
  | .exhausted => false

/-- RUN from `s` ends in `t` (R71, R73). -/
def RunsTo (s t : State) : Prop := ∃ k, runFor k s = .next t ∧ t.status ≠ .running

/-- A run from `s` that reaches no terminal status: a hang (R73). -/
def Hangs (s : State) : Prop := ∀ t, ¬ RunsTo s t

end Machine

end Sys2Proof
end

