-- ==== Sys2Proof/Certificates/Slice0/Obligations.lean ====
section
/-! DEFINITION. The statements for the provers, each a rule of spec/ said of the model. Where a clause rests on one of the
spec's own decisions (D1 to D21), the docstring names it. -/

open Sys2Proof Sys2Proof.Machine

/-! ### Encoding and decoding (30_encoding.md) -/

/-- A few instruction words written out bit by bit from the formats of R61 and the opcode values of R63 (D1) decode to
the instructions they stand for. -/
def Obligations.SpecWordsDecode : Prop :=
  decode [0x01, 0x00, 0x03, 0xE8] = .ok (.load 0 1000, []) ∧
  decode [0x05, 0x02, 0x03, 0x05, 0xFF] = .ok (.truediv 2 3 5, [0xFF]) ∧
  decode [0x06, 0x00, 0x01, 0xAB] = .ok (.eq 0 1 0xAB, []) ∧
  decode [0x0E, 0x01] = .ok (.jmpb 1, []) ∧
  decode [0x11, 0x00] = .ok (.hlt, [0x00]) ∧
  decode [0x01, 0x00, 0x00] = .error (.outOfBytes 1) ∧
  decode [0x12, 0x00] = .error (.unknownOpcode 0x12) ∧
  decodeTableWord 32 0x02000102 = some (.add 0 1 2) ∧
  decodeTableWord 16 0x0F03 = some (.jeq 3) ∧
  decodeTableWord 8 0x00 = some .nop

/-- The opcode map (R63), each mnemonic's byte, and the bytes that are no opcode (R65): the spec's own choice, its
decision D1 (log 1). The statements of the single instructions name their opcode by mnemonic. -/
def Obligations.OpcodeMap : Prop :=
  Opcode.nop.value = 0x00 ∧ Opcode.load.value = 0x01 ∧ Opcode.add.value = 0x02 ∧ Opcode.sub.value = 0x03 ∧
  Opcode.mul.value = 0x04 ∧ Opcode.truediv.value = 0x05 ∧ Opcode.eq.value = 0x06 ∧ Opcode.ne.value = 0x07 ∧
  Opcode.gt.value = 0x08 ∧ Opcode.lt.value = 0x09 ∧ Opcode.ge.value = 0x0A ∧ Opcode.le.value = 0x0B ∧
  Opcode.jmp.value = 0x0C ∧ Opcode.jmpf.value = 0x0D ∧ Opcode.jmpb.value = 0x0E ∧ Opcode.jeq.value = 0x0F ∧
  Opcode.jne.value = 0x10 ∧ Opcode.hlt.value = 0x11 ∧
  (∀ op : Opcode, Opcode.ofByte op.value = some op) ∧
  (∀ b : Byte, Opcode.ofByte b = none ↔ 0x12 ≤ b)

/-- Decoding an encoded instruction gives it back, with every operand at every value, and leaves the bytes after it
(R60 to R66). -/
def Obligations.DecodeOfEncode : Prop :=
  ∀ (i : Instr) (rest : List Byte), decode (encode i ++ rest) = .ok (i, rest)

/-- Bytes that decode are the encoding of what they decode to: no encoding has a second meaning, no bit is dropped
(R60 to R66). -/
def Obligations.EncodeOfDecode : Prop :=
  ∀ (bs : List Byte) (i : Instr) (rest : List Byte), decode bs = .ok (i, rest) → bs = encode i ++ rest

/-- The opcode byte alone fixes the length (R64): two instructions with the same first byte consume the same number of
bytes, the number R64 gives the mnemonic; an unknown opcode is refused on its own byte, whatever follows, and a step consumes that
one byte. -/
def Obligations.LengthFixedByOpcodeByte : Prop :=
  (∀ (b : Byte) (bs rest : List Byte) (i : Instr), decode (b :: bs) = .ok (i, rest) →
    i.opcode.value = b ∧ bs.length + 1 = rest.length + i.length ∧
    i.length = match i with
      | .nop => 1
      | .hlt => 1
      | .jmp _ => 2
      | .jmpf _ => 2
      | .jmpb _ => 2
      | .jeq _ => 2
      | .jne _ => 2
      | _ => 4) ∧
  (∀ (b : Byte) (bs : List Byte), Opcode.ofByte b = none → decode (b :: bs) = .error (.unknownOpcode b)) ∧
  (∀ s t : State, s.status = .running → s.pc < s.progLen → Opcode.ofByte (s.prog.read s.pc.toNat) = none →
    step s = .next t → t.pc.toNat = s.pc.toNat + 1)

/-! ### Fetching and the instruction cycle (20_memory.md, 30_encoding.md) -/

/-- `MemRead(addr, n)` for n in 1, 2 is the sum R42 gives: the byte at the lower address is the most significant. It is
never applied beyond the end of the program: a step does not depend on what the memory list holds at L or beyond. -/
def Obligations.MemReadStaysInTheProgram : Prop :=
  (∀ (m : Memory) (addr n : Nat), n = 1 ∨ n = 2 →
    memRead m addr n = ∑ k ∈ Finset.range n, (m.read (addr + k)).toNat * 256 ^ (n - 1 - k)) ∧
  (∀ (s t : State) (m : Memory), (∀ a < s.progLen.toNat, m.read a = s.prog.read a) → step s = .next t →
    step { s with prog := m } = .next { t with prog := m })

/-- FetchByte and FetchWord (R44, R45): they read at pc and advance it by what they read, or raise OutOfBounds(pc) and
advance nothing, FetchWord even if one byte remains. The detail and the unchanged pc are D14. -/
def Obligations.FetchPrimitives : Prop :=
  ∀ s : State,
    (s.pc < s.progLen → s.fetchByte = .ok (s.prog.read s.pc.toNat, { s with pc := s.pc + 1 })) ∧
    (s.progLen ≤ s.pc → s.fetchByte = .error (⟨.outOfBounds, s.pc⟩, s)) ∧
    (s.pc.toNat + 2 ≤ s.progLen.toNat → ∃ w : Half,
      w.toNat = 256 * (s.prog.read s.pc.toNat).toNat + (s.prog.read (s.pc.toNat + 1)).toNat ∧
      s.fetchWord = .ok (w, { s with pc := s.pc + 2 })) ∧
    (s.progLen.toNat < s.pc.toNat + 2 → s.fetchWord = .error (⟨.outOfBounds, s.pc⟩, s))

/-- The fetch unit reads what the decoder reads from the bytes at pc, and leaves pc past exactly the bytes it consumed;
where the bytes are no instruction it raises what R44, R45 and R65 say, with pc where the last successful fetch left it
(D14). -/
def Obligations.FetchAgreesWithDecode : Prop :=
  ∀ s : State, s.pc < s.progLen →
    match decode s.bytesAtPc with
    | .ok (i, _) => s.fetchInstr = .ok (i, s.advance i.length) ∧ s.pc.toNat + i.length ≤ s.progLen.toNat
    | .error (.unknownOpcode b) => s.fetchInstr = .error (⟨.unknownOpcode, b.setWidth 64⟩, s.advance 1)
    | .error (.outOfBytes left) =>
      let stop : Word := s.progLen - BitVec.ofNat 64 left
      s.fetchInstr = .error (⟨.outOfBounds, stop⟩, { s with pc := stop })

/-- A step runs the decoded instruction: in RUNNING, when the bytes at pc decode to `i`, the step is `exec i` (R69).
`exec` is given the state at pc_start and moves past the instruction itself. -/
def Obligations.StepRunsDecodedInstruction : Prop :=
  ∀ (s : State) (i : Instr) (rest : List Byte), s.status = .running → decode s.bytesAtPc = .ok (i, rest) →
    step s = exec i s

/-- The bytes of an instruction that stand at pc are what the next step runs (R60, R69). -/
def Obligations.StepRunsEncodedInstruction : Prop :=
  ∀ (s : State) (i : Instr), s.Fetches (encode i) → step s = exec i s

/-- Loading a table word where the machine fetches makes the next step run its instruction (log 24, log 25: the model's
own convention). -/
def Obligations.LoadedWordRunsNext : Prop :=
  ∀ (s : State) (nbits w : Nat) (i : Instr), s.prog.wf → s.pc.toNat + 4 < 2 ^ 64 → nbits ≤ 32 →
    decodeTableWord nbits w = some i → step (s.withFetchWord nbits w) = exec i (s.withFetchWord nbits w)

/-- An opcode byte not in the table raises UnknownOpcode with the byte as its detail, after that one byte was consumed
(R65; the range is D1's, the record D12's). -/
def Obligations.UnknownOpcodeFaults : Prop :=
  ∀ s : State, s.status = .running → s.pc < s.progLen → 0x12 ≤ s.prog.read s.pc.toNat →
    step s = .next { s with
      pc := s.pc + 1
      status := .fault .unknownOpcode
      faultPc := s.pc
      faultDetail := (s.prog.read s.pc.toNat).setWidth 64 }

/-- A RUNNING step at or beyond the end of the program sets EXHAUSTED and changes nothing else (R70; for pc beyond L this
is D10). -/
def Obligations.EndOfProgramExhausts : Prop :=
  ∀ s : State, s.status = .running → s.progLen ≤ s.pc → step s = .next { s with status := .exhausted }

/-- Terminal statuses are sticky: STEP and RUN change nothing (R69, R71; D11). -/
def Obligations.TerminalStatusIsSticky : Prop :=
  ∀ s : State, s.status ≠ .running → step s = .next s ∧ ∀ k, runFor k s = .next s

/-- Every step of every state answers a next state: the machine has no fault or refusal outside its status (R69, R202,
R206). -/
def Obligations.StepAlwaysAnswersNext : Prop :=
  ∀ s : State, ∃ t, step s = .next t

/-- An instruction that is no jump leaves pc at pc_start plus its length, also when it faults, and the sum never wraps
(R27; the 64 bits of pc are D6, log 6). -/
def Obligations.SequentialPcNeverWraps : Prop :=
  ∀ (s t : State) (i : Instr), s.Fetches (encode i) → i.isJump = false → step s = .next t →
    t.pc.toNat = s.pc.toNat + i.length

/-! ### NOP, HLT, LOAD (45_system.md, 41_load.md) -/

/-- NOP: one byte, and nothing but the pc's advance by it (R190; its value 0x00 is D1, stated in OpcodeMap). -/
def Obligations.NopEffect : Prop :=
  encode .nop = [Opcode.nop.value] ∧ ∀ s : State, exec .nop s = .next { s with pc := s.pc + 1 }

/-- HLT: one byte; it sets HALTED and leaves pc after its byte, nothing else; every later STEP changes nothing (R191;
that pc stays there is the spec's own derivation from R69, that HALTED is sticky is D11). -/
def Obligations.HltEffect : Prop :=
  encode .hlt = [Opcode.hlt.value] ∧
  ∀ s : State, exec .hlt s = .next { s with pc := s.pc + 1, status := .halted } ∧
    step { s with pc := s.pc + 1, status := .halted } = .next { s with pc := s.pc + 1, status := .halted }

/-- LOAD (R100): its encoding, its two OutOfBounds exceptions, RegisterNotFound, and its effect, the exact unsigned
immediate in the destination and nothing else but pc. The fault record, fault_pc at pc_start with it, is R202's (D12,
log 12); that pc stays after a failed fetch, and the detail there, is D14 (log 14). -/
def Obligations.LoadEffect : Prop :=
  ∀ (s : State) (dst : RegIdx) (imm : Half),
    encode (.load dst imm) = [Opcode.load.value, dst, imm.extractLsb' 8 8, imm.extractLsb' 0 8] ∧
    (s.status = .running → s.prog.read s.pc.toNat = Opcode.load.value → s.pc.toNat + 1 = s.progLen.toNat →
      step s = .next { s with
        pc := s.pc + 1, status := .fault .outOfBounds, faultPc := s.pc, faultDetail := s.pc + 1 }) ∧
    (s.status = .running → s.prog.read s.pc.toNat = Opcode.load.value → s.pc.toNat + 1 < s.progLen.toNat →
      s.progLen.toNat < s.pc.toNat + 4 →
      step s = .next { s with
        pc := s.pc + 2, status := .fault .outOfBounds, faultPc := s.pc, faultDetail := s.pc + 2 }) ∧
    (s.regCount ≤ dst.toNat →
      exec (.load dst imm) s = .next (s.faulted 4 .registerNotFound (dst.setWidth 64))) ∧
    (dst.toNat < s.regCount → ∃ v : F64, v.isFinite = true ∧ v.real = (imm.toNat : ℚ) ∧ v.neg = false ∧
      exec (.load dst imm) s = .next { s with pc := s.pc + 4, regs := s.regs.set dst.toNat v })

/-- A LOAD's value reads back exactly, by the host and by the next instruction, and a LOAD to another register does not
interfere (R101, which the spec marks as derived). -/
def Obligations.LoadReadsBack : Prop :=
  ∀ (s t u : State) (d e : RegIdx) (m n : Half), d ≠ e → s.status = .running →
    exec (.load d m) s = .next t → t.status = .running → exec (.load e n) t = .next u → u.status = .running →
    ∃ x y : F64, hostReadReg u d = .ok x ∧ hostReadReg u e = .ok y ∧ u.readReg d = .ok x ∧ u.readReg e = .ok y ∧
      x.real = (m.toNat : ℚ) ∧ y.real = (n.toNat : ℚ) ∧ x.neg = false ∧ y.neg = false

/-! ### Arithmetic (42_arithmetic.md) -/

/-- `round` is IEEE 754 round to nearest, ties to even, with subnormals kept, and a result that is not finite
exactly from 2^1024 − 2^970 on (R111; D3, log 3, and G2 of the spec's general knowledge, log 22). -/
def Obligations.RoundingIsCorrect : Prop :=
  ∀ (neg : Bool) (q : ℚ), (q < 0 → neg = true) → (0 < q → neg = false) →
    (|q| < overflowThreshold → (F64.round neg q).IsRoundingOf q ∧ (F64.round neg q).neg = neg) ∧
    (overflowThreshold ≤ |q| → (F64.round neg q).isFinite = false)

/-- `f64(k)` is exact for every natural number up to 2^53, so for every LOAD immediate (R12; R112 L3, which the spec
marks as derived; binary64 is D3, log 3). -/
def Obligations.NaturalNumbersAreExact : Prop :=
  ∀ k : Nat, k ≤ 2 ^ 53 → (F64.ofNat k).isFinite = true ∧ (F64.ofNat k).real = (k : ℚ) ∧ (F64.ofNat k).neg = false

/-- Laws L1 and L2 (R112, which the spec marks as derived): an exact result that binary64 can represent is the result,
and every integer of magnitude at most 2^53 can be represented. Binary64 is D3 (log 3). -/
def Obligations.ExactResultsAreKept : Prop :=
  (∀ (op : ArithOp) (x y z : F64), (op = .fdiv → y.real ≠ 0) → z.isFinite = true →
    z.real = op.exact x.real y.real →
    (op.apply x y).isFinite = true ∧ (op.apply x y).real = op.exact x.real y.real) ∧
  (∀ k : Int, |k| ≤ 2 ^ 53 → ∃ z : F64, z.isFinite = true ∧ z.real = (k : ℚ))

/-- Laws L4 and L5 (R112, which the spec marks as derived): addition and multiplication commute, and a number minus
itself is `+0.0`. Binary64 is D3 (log 3). -/
def Obligations.ArithmeticAlgebra : Prop :=
  ∀ x y : F64, fadd x y = fadd y x ∧ fmul x y = fmul y x ∧ fsub x x = F64.posZero

/-- ADD (R120, the handler of R114): encoding, exceptions in order, and the correctly rounded sum in the destination,
an exact zero being `+0.0` but for two `-0.0`. Binary64 is D3 (log 3), overflow as a
fault D4 (log 4), the order D13 (log 13), the fault record D12 (log 12), pc and the detail after a failed fetch D14
(log 14). -/
def Obligations.AddEffect : Prop :=
  ∀ (s : State) (a b d : RegIdx), ArithRule s (.add a b d) .add a b d (fun x y => x + y)
    (fun x y => if x.real + y.real = 0 then x.neg && y.neg else x.real + y.real < 0) (fun _ => True)

/-- SUB (R121, the handler of R114): the first operand is the minuend; an exact zero is `+0.0` but for `-0.0` minus
`+0.0`. Binary64 is D3 (log 3), overflow as a
fault D4 (log 4), the order D13 (log 13), the fault record D12 (log 12), pc and the detail after a failed fetch D14
(log 14). -/
def Obligations.SubEffect : Prop :=
  ∀ (s : State) (a b d : RegIdx), ArithRule s (.sub a b d) .sub a b d (fun x y => x - y)
    (fun x y => if x.real - y.real = 0 then x.neg && !y.neg else x.real - y.real < 0) (fun _ => True)

/-- MUL (R122, the handler of R114): the sign, of a zero too, is the exclusive-or of the
signs. Binary64 is D3 (log 3), overflow as a
fault D4 (log 4), the order D13 (log 13), the fault record D12 (log 12), pc and the detail after a failed fetch D14
(log 14). -/
def Obligations.MulEffect : Prop :=
  ∀ (s : State) (a b d : RegIdx), ArithRule s (.mul a b d) .mul a b d (fun x y => x * y)
    (fun x y => x.neg ^^ y.neg) (fun _ => True)

/-- TRUEDIV (R123, the handler of R114) with a divisor that is not zero: the quotient is rounded, never truncated; and
DivisionByZero(b) for a divisor of either zero, checked before the destination (D5, log 5). Binary64 is D3 (log 3), overflow as a
fault D4 (log 4), the order D13 (log 13), the fault record D12 (log 12), pc and the detail after a failed fetch D14
(log 14). -/
def Obligations.TruedivEffect : Prop :=
  ∀ (s : State) (a b d : RegIdx),
    ArithRule s (.truediv a b d) .truediv a b d (fun x y => x / y) (fun x y => x.neg ^^ y.neg) (fun y => y ≠ 0) ∧
    ∀ x y, s.regs[a.toNat]? = some x → s.regs[b.toNat]? = some y → y.real = 0 →
      exec (.truediv a b d) s = .next (s.faulted 4 .divisionByZero (b.setWidth 64))

/-! ### Comparisons (43_compare.md) -/

/-- EQ, NE, GT, LT, GE, LE (R140 to R146): encoding with the padding byte, exceptions in order, and the flag set to the
relation of the exact values, the first operand on the left, true or false. The order is D13 (log 13), the equality
of the two zeros G4 of the spec's general knowledge (log 22), the fault record D12 (log 12), pc and the detail after a
failed fetch D14 (log 14). -/
def Obligations.ComparisonEffects : Prop :=
  ∀ (s : State) (a b : RegIdx) (p : Byte),
    ComparisonRule s (.eq a b p) .eq a b p (fun x y => x = y) ∧
    ComparisonRule s (.ne a b p) .ne a b p (fun x y => x ≠ y) ∧
    ComparisonRule s (.gt a b p) .gt a b p (fun x y => y < x) ∧
    ComparisonRule s (.lt a b p) .lt a b p (fun x y => x < y) ∧
    ComparisonRule s (.ge a b p) .ge a b p (fun x y => y ≤ x) ∧
    ComparisonRule s (.le a b p) .le a b p (fun x y => x ≤ y)

/-- NE sets the opposite of EQ, GE of LT, LE of GT, on the same operands (the corner cases of R142, R145, R146), with the
same new state but for the flag. -/
def Obligations.ComparisonsOppose : Prop :=
  ∀ (s : State) (a b : RegIdx) (p : Byte), a.toNat < s.regCount → b.toNat < s.regCount →
    (∃ t, exec (.eq a b p) s = .next t ∧ exec (.ne a b p) s = .next { t with flag := !t.flag }) ∧
    (∃ t, exec (.lt a b p) s = .next t ∧ exec (.ge a b p) s = .next { t with flag := !t.flag }) ∧
    (∃ t, exec (.gt a b p) s = .next t ∧ exec (.le a b p) s = .next { t with flag := !t.flag })

/-- The padding byte of a comparison means nothing: with any other byte in its place the step leaves the same state but
for that byte of the program (R62, R140). -/
def Obligations.PaddingByteMeansNothing : Prop :=
  ∀ (s : State) (op : Opcode) (a b p q : Byte), op.format = .C → s.prog.wf → s.Fetches [op.value, a, b, p] →
    ∃ t, step s = .next t ∧
      step { s with prog := s.prog.write (s.pc.toNat + 3) q } =
        .next { t with prog := s.prog.write (s.pc.toNat + 3) q }

/-! ### Control transfer (44_control_transfer.md) -/

/-- JMP is absolute, JMPF and JMPB are relative to pc_next (R161, R162, R163), with the target check of R160: a target
that is a natural number below 2^64 becomes pc, at or beyond L too; any other raises BadJumpTarget with pc left at
pc_next. The check is D8 and D9 (log 8, log 9), its bound 2^64 the width of pc, D6 (log 6); the fault record is D12
(log 12), pc and the detail after a failed fetch D14 (log 14). -/
def Obligations.UnconditionalJumps : Prop :=
  ∀ (s : State) (r : RegIdx),
    TakenJumpRule s (.jmp r) .jmp r (fun v => v) ∧
    TakenJumpRule s (.jmpf r) .jmpf r (fun v => ((s.pc + 2).toNat : ℚ) + v) ∧
    TakenJumpRule s (.jmpb r) .jmpb r (fun v => ((s.pc + 2).toNat : ℚ) - v)

/-- JEQ jumps when the flag is true, JNE when it is false (R164, R165); untaken, each continues at pc_next, its register
still bounds-checked (D15, log 15) but its value not. The target check is D8 and D9 (log 8, log 9), its bound 2^64 the
width of pc, D6 (log 6); the fault record is D12 (log 12), pc and the detail after a failed fetch D14 (log 14). -/
def Obligations.ConditionalJumps : Prop :=
  ∀ (s : State) (r : RegIdx),
    encode (.jeq r) = [Opcode.jeq.value, r] ∧ encode (.jne r) = [Opcode.jne.value, r] ∧
    (s.EndsInside .jeq 2 → step s = .next s.truncated) ∧
    (s.EndsInside .jne 2 → step s = .next s.truncated) ∧
    (s.regCount ≤ r.toNat →
      exec (.jeq r) s = .next (s.faulted 2 .registerNotFound (r.setWidth 64)) ∧
      exec (.jne r) s = .next (s.faulted 2 .registerNotFound (r.setWidth 64))) ∧
    (s.flag = true → TakenJumpRule s (.jeq r) .jeq r (fun v => v) ∧
      (r.toNat < s.regCount → exec (.jne r) s = .next { s with pc := s.pc + 2 })) ∧
    (s.flag = false → TakenJumpRule s (.jne r) .jne r (fun v => v) ∧
      (r.toNat < s.regCount → exec (.jeq r) s = .next { s with pc := s.pc + 2 }))

/-- A JMP whose register holds its own address loops for ever: the step changes nothing, and the run hangs (the corner
case of R161; R167, R73). -/
def Obligations.JumpToItselfHangs : Prop :=
  ∀ (s : State) (r : RegIdx) (v : F64), s.Fetches (encode (.jmp r)) → s.regs[r.toNat]? = some v →
    v.real = (s.pc.toNat : ℚ) → step s = .next s ∧ Hangs s

/-! ### What instructions read and write (10_state.md) -/

/-- Registers are read and written as the table of R23 says (`Instr.reads`, `Instr.writes`). Frame: a slot that is not the
instruction's destination keeps its value, and no slot appears or goes. Noninterference: a register the instruction
does not read has no influence on anything but itself, and none on a result written over it. The padding byte of a
comparison names no register: no value of it changes what the instruction does. -/
def Obligations.RegistersReadAndWritten : Prop :=
  (∀ (i : Instr) (s t : State), exec i s = .next t →
    t.regs.length = s.regs.length ∧
    ∀ k : Nat, (∀ d ∈ i.writes, d.toNat ≠ k) → t.regs[k]? = s.regs[k]?) ∧
  (∀ (i : Instr) (s : State) (j : RegIdx) (v : F64), j ∉ i.reads →
    ∃ t u, exec i s = .next t ∧ exec i { s with regs := s.regs.set j.toNat v } = .next u ∧
      (∀ k : Nat, k ≠ j.toNat → u.regs[k]? = t.regs[k]?) ∧
      (j ∈ i.writes → s.status = .running → t.status = .running → u.regs[j.toNat]? = t.regs[j.toNat]?) ∧
      u.pc = t.pc ∧ u.flag = t.flag ∧ u.status = t.status ∧ u.faultPc = t.faultPc ∧ u.faultDetail = t.faultDetail) ∧
  (∀ (s : State) (a b : RegIdx) (p q : Byte),
    exec (.eq a b p) s = exec (.eq a b q) s ∧ exec (.ne a b p) s = exec (.ne a b q) s ∧
    exec (.gt a b p) s = exec (.gt a b q) s ∧ exec (.lt a b p) s = exec (.lt a b q) s ∧
    exec (.ge a b p) s = exec (.ge a b q) s ∧ exec (.le a b p) s = exec (.le a b q) s)

/-- The comparison flag (R28): false after construction; written by no instruction but the six comparisons, by no step
that runs another instruction and by no host write, so it keeps its value across any number of other instructions; read
by no instruction but JEQ and JNE; the host can read it, with the READ_FLAG that D18 adds (log 18). -/
def Obligations.FlagIsTheComparisonsOwn : Prop :=
  (∀ (prog : List Byte) (n : Nat) (s : State), construct prog n = .ok s → hostReadFlag s = false) ∧
  (∀ (i : Instr) (s t : State), i.isComparison = false → exec i s = .next t → t.flag = s.flag) ∧
  (∀ s t : State, step s = .next t → t.flag ≠ s.flag →
    ∃ i rest, decode s.bytesAtPc = .ok (i, rest) ∧ i.isComparison = true) ∧
  (∀ (k : Nat) (s t : State), runFor k s = .next t → t.flag ≠ s.flag →
    ∃ j u i rest, j < k ∧ runFor j s = .next u ∧ decode u.bytesAtPc = .ok (i, rest) ∧ i.isComparison = true) ∧
  (∀ (s t : State) (r : RegIdx) (v : F64), hostWriteReg s r v = .ok t → t.flag = s.flag) ∧
  (∀ s : State, hostReadFlag s = s.flag) ∧
  (∀ (i : Instr) (s : State) (b : Bool), i.opcode ≠ .jeq → i.opcode ≠ .jne →
    ∃ t u, exec i s = .next t ∧ exec i { s with flag := b } = .next u ∧
      u.regs = t.regs ∧ u.pc = t.pc ∧ u.status = t.status ∧ u.faultPc = t.faultPc ∧ u.faultDetail = t.faultDetail ∧
      (i.isComparison = true → s.status = .running → t.status = .running → u.flag = t.flag))

/-- The program buffer is read only (R41): no step and no host write changes a byte of it or its length; nor, R34, the
number of registers. -/
def Obligations.ProgramIsNeverWritten : Prop :=
  (∀ s t : State, step s = .next t → (∀ a, t.prog.read a = s.prog.read a) ∧ t.prog = s.prog ∧
    t.progLen = s.progLen ∧ t.regCount = s.regCount) ∧
  (∀ (s t : State) (r : RegIdx) (v : F64), hostWriteReg s r v = .ok t → (∀ a, t.prog.read a = s.prog.read a) ∧
    t.prog = s.prog ∧ t.progLen = s.progLen ∧ t.regCount = s.regCount)

/-- Only HLT changes the status without a fault, and it changes it to HALTED (R192); an instruction that takes no fault
leaves the fault record alone (R30, R201), and one that takes a fault records pc_start, which is D12 (log 12). -/
def Obligations.StatusFrame : Prop :=
  ∀ (i : Instr) (s t : State), s.status = .running → exec i s = .next t →
    (t.status = .running ∧ i ≠ .hlt ∧ t.faultPc = s.faultPc ∧ t.faultDetail = s.faultDetail) ∨
    (t.status = .halted ∧ i = .hlt ∧ t.faultPc = s.faultPc ∧ t.faultDetail = s.faultDetail) ∨
    (∃ c, t.status = .fault c ∧ c ≠ .outOfBounds ∧ c ≠ .unknownOpcode ∧ t.faultPc = s.pc)

/-! ### Faults (60_exceptions.md) -/

/-- Faults are precise (R202): a step that takes one writes no register and no flag, records pc_start, and leaves pc past
the byte fetches that succeeded, at most four and never beyond the end of the program. A step that takes none leaves
the record alone (R30). The record is D12, pc after a failed fetch D14. -/
def Obligations.FaultsArePrecise : Prop :=
  ∀ s t : State, s.status = .running → step s = .next t →
    (∀ c, t.status = .fault c →
      t.regs = s.regs ∧ t.flag = s.flag ∧ t.faultPc = s.pc ∧
      s.pc.toNat < t.pc.toNat ∧ t.pc.toNat ≤ s.pc.toNat + 4 ∧ t.pc ≤ s.progLen) ∧
    ((∀ c, t.status ≠ .fault c) → t.faultPc = s.faultPc ∧ t.faultDetail = s.faultDetail)

/-- The fault record agrees with the fault (R200, R202): an invariant of every step, and of every host write.
The opcode range is D1, the statuses D11, the record D12, pc and the detail after a failed fetch D14 (log 1, 11, 12,
14). -/
def Obligations.FaultRecordStaysCoherent : Prop :=
  (∀ s t : State, s.FaultRecordCoherent → step s = .next t → t.FaultRecordCoherent) ∧
  (∀ (s t : State) (r : RegIdx) (v : F64), s.FaultRecordCoherent → hostWriteReg s r v = .ok t → t.FaultRecordCoherent)

/-- The status codes the host reads (R29, R200; the numbers are D11's). -/
def Obligations.StatusCodes : Prop :=
  ∀ s : State, hostReadStatus s =
    (match s.status with
      | .running => 0
      | .halted => 1
      | .exhausted => 2
      | .fault .registerNotFound => 3
      | .fault .outOfBounds => 4
      | .fault .unknownOpcode => 5
      | .fault .divisionByZero => 6
      | .fault .badJumpTarget => 7
      | .fault .arithmeticOverflow => 8, s.faultPc, s.faultDetail)

/-! ### The host interface, reset and runs (10_state.md, 70_reset_and_hazards.md, 30_encoding.md) -/

/-- Checked register access, by instructions and by the host (R22): below N the slot, from N on RegisterNotFound and no
change. -/
def Obligations.RegisterAccessIsChecked : Prop :=
  ∀ (s : State) (i : RegIdx) (v : F64),
    (i.toNat < s.regCount →
      (∃ x, s.regs[i.toNat]? = some x ∧ s.readReg i = .ok x ∧ hostReadReg s i = .ok x) ∧
      s.writeReg i v = .ok { s with regs := s.regs.set i.toNat v } ∧
      (v.isFinite = true → hostWriteReg s i v = .ok { s with regs := s.regs.set i.toNat v })) ∧
    (s.regCount ≤ i.toNat →
      s.readReg i = .error ⟨.registerNotFound, i.setWidth 64⟩ ∧
      s.writeReg i v = .error ⟨.registerNotFound, i.setWidth 64⟩ ∧
      hostReadReg s i = .error (.registerNotFound i) ∧
      (v.isFinite = true → hostWriteReg s i v = .error (.registerNotFound i)))

/-- A register write changes only its target slot, which then reads as written, as often as it is read (R24). -/
def Obligations.RegisterWriteChangesOnlyItsSlot : Prop :=
  ∀ (s t : State) (i : RegIdx) (v : F64), s.writeReg i v = .ok t →
    t.readReg i = .ok v ∧ (∀ j, j ≠ i → t.readReg j = s.readReg j) ∧
    t = { s with regs := t.regs } ∧ t.regCount = s.regCount

/-- WRITE_REG refuses a value that is not finite, with no change of state (R37; D17, log 17). For an index of N or more,
where two checks fail, that the value is the one reported is the model's own order of the checks (log 28). -/
def Obligations.HostWriteRefusesNonFinite : Prop :=
  ∀ (s : State) (i : RegIdx) (v : F64), v.isFinite = false → hostWriteReg s i v = .error .notFinite

/-- CONSTRUCT (R230, R231): accepted for every N up to 256 and every program up to 2^64 − 1 bytes, refused beyond (D2,
D7); it gives every slot `+0.0`, pc 0, flag false, RUNNING, an empty fault record, and the program's bytes at their
addresses (the reset values of R20). The errors' names, and that too many registers are reported where the program is
too long as well, are the model's own choice (log 29). -/
def Obligations.ConstructionState : Prop :=
  ∀ (prog : List Byte) (n : Nat),
    (256 < n → construct prog n = .error .tooManyRegisters) ∧
    (n ≤ 256 → 2 ^ 64 - 1 < prog.length → construct prog n = .error .programTooLong) ∧
    (n ≤ 256 → prog.length ≤ 2 ^ 64 - 1 → ∃ s, construct prog n = .ok s ∧
      s.regCount = n ∧ (∀ i : RegIdx, i.toNat < n → s.readReg i = .ok F64.posZero) ∧
      s.pc = 0 ∧ s.flag = false ∧ s.status = .running ∧ s.faultPc = 0 ∧ s.faultDetail = 0 ∧
      s.progLen.toNat = prog.length ∧ ∀ k b, prog[k]? = some b → s.prog.read k = b)

/-- The model's reset is the construction of the empty program with the default 32 registers (log 24, the model's
choice; the other values are those of R20). -/
def Obligations.ResetIsEmptyConstruction : Prop :=
  construct [] = .ok State.reset ∧ State.reset.regs = List.replicate 32 F64.posZero ∧ State.reset.pc = 0 ∧
    State.reset.flag = false ∧ State.reset.status = .running ∧ State.reset.faultPc = 0 ∧
    State.reset.faultDetail = 0 ∧ State.reset.prog = [] ∧ State.reset.progLen = 0

/-- The invariant holds after reset. -/
def Obligations.InvHoldsAtReset : Prop := State.reset.Inv

/-- The invariant holds after every construction (R20, R21, R25, R40). -/
def Obligations.InvHoldsAfterConstruction : Prop :=
  ∀ (prog : List Byte) (n : Nat) (s : State), construct prog n = .ok s → s.Inv

/-- Every step keeps the invariant: at most 256 slots, every slot finite, the program in canonical form inside L, no
fault record without a fault (R21, R25, R30, R41; that overflow faults is D4, log 4, that
only a fault writes the record D12, log 12). -/
def Obligations.StepKeepsInv : Prop :=
  ∀ s t : State, s.Inv → step s = .next t → t.Inv

/-- Every accepted host write keeps the invariant (R25, R36, R37; the refusal is D17, log 17). -/
def Obligations.HostWriteKeepsInv : Prop :=
  ∀ (s t : State) (i : RegIdx) (v : F64), s.Inv → hostWriteReg s i v = .ok t → t.Inv

/-- A run ends at the first terminal status and stays there: more steps change nothing, and the end is one state (R71,
R73; that terminal statuses are sticky is D11). -/
def Obligations.RunEndsOnce : Prop :=
  (∀ (s t : State) (k : Nat), runFor k s = .next t → t.status ≠ .running → ∀ j, runFor (k + j) s = .next t) ∧
  (∀ s t u : State, RunsTo s t → RunsTo s u → t = u)

/-- From a state that meets the invariant, a run that ends does so in a state that meets it, at a clean end or an error
end, with every register still finite (R25, R73). -/
def Obligations.RunsEndWellFormed : Prop :=
  ∀ s t : State, s.Inv → RunsTo s t →
    t.Inv ∧ (t.status.isCleanEnd = true ∨ t.status.isErrorEnd = true) ∧ t.prog = s.prog ∧ t.progLen = s.progLen ∧
    ∀ v ∈ t.regs, v.isFinite = true
end

