-- ==== Sys2Proof/Laws/Decode.lean ====
section
/-! SUPPORT. The opcode map is one to one, and what the decoder's parts do on a list of bytes. -/

namespace Sys2Proof

/-- Each opcode's byte decodes to it. -/
@[simp] theorem Opcode.ofByte_value (op : Opcode) : Opcode.ofByte op.value = some op := by
  cases op <;> rfl

/-- A byte that decodes is the opcode's byte. -/
theorem Opcode.value_of_ofByte {b : Byte} {op : Opcode} (h : Opcode.ofByte b = some op) : op.value = b := by
  have := List.find?_some h
  simpa using this

/-- The bytes 0x12 to 0xFF are no opcodes, and only they (R65). -/
theorem Opcode.ofByte_eq_none : ∀ b : Byte, Opcode.ofByte b = none ↔ 0x12 ≤ b := by decide +kernel

/-- The two bytes of an immediate join to it. -/
@[simp] theorem halfBytes_join (h : Half) : (h.extractLsb' 8 8 ++ h.extractLsb' 0 8 : Half) = h := by
  apply BitVec.eq_of_toNat_eq
  have hh := h.isLt
  have hl : (h.extractLsb' 0 8).toNat < 2 ^ 8 := (h.extractLsb' 0 8).isLt
  rw [BitVec.toNat_append, ← Nat.shiftLeft_add_eq_or_of_lt hl]
  simp only [BitVec.extractLsb'_toNat, Nat.shiftLeft_eq, Nat.shiftRight_eq_div_pow]
  omega

/-- An immediate read from two bytes splits back into them. -/
theorem extract_append (hi lo : Byte) :
    (hi ++ lo : Half).extractLsb' 8 8 = hi ∧ (hi ++ lo : Half).extractLsb' 0 8 = lo := by
  constructor <;>
  · apply BitVec.eq_of_toNat_eq
    have h1 := hi.isLt
    have h2 := lo.isLt
    rw [BitVec.extractLsb'_toNat, BitVec.toNat_append, ← Nat.shiftLeft_add_eq_or_of_lt h2]
    simp only [Nat.shiftLeft_eq, Nat.shiftRight_eq_div_pow]
    omega

/-- The opcode byte of a list. -/
theorem readOpcode_cons (b : Byte) (bs : List Byte) :
    listCursor.readOpcode (b :: bs) = match Opcode.ofByte b with
      | some op => .ok (op, bs)
      | none => .error (.unknownOpcode b) := rfl

theorem readJ_cons (mk : Byte → Instr) (r : Byte) (bs : List Byte) :
    listCursor.readJ mk (r :: bs) = .ok (mk r, bs) := rfl

theorem readI_cons (mk : Byte → Half → Instr) (d hi lo : Byte) (bs : List Byte) :
    listCursor.readI mk (d :: hi :: lo :: bs) = .ok (mk d (hi ++ lo), bs) := rfl

theorem read3_cons (mk : Byte → Byte → Byte → Instr) (x y z : Byte) (bs : List Byte) :
    listCursor.read3 mk (x :: y :: z :: bs) = .ok (mk x y z, bs) := rfl

/-- Decoding is the opcode byte, then the operands. -/
theorem decode_cons (b : Byte) (bs : List Byte) :
    decode (b :: bs) = match Opcode.ofByte b with
      | some op => listCursor.readOperands op bs
      | none => .error (.unknownOpcode b) := by
  unfold decode Cursor.readInstr
  rw [readOpcode_cons]
  cases Opcode.ofByte b <;> rfl

/-- What a format-J read on a list can do. -/
theorem readJ_cases (mk : Byte → Instr) (bs : List Byte) :
    (∃ r rest, bs = r :: rest ∧ listCursor.readJ mk bs = .ok (mk r, rest)) ∨
      (∃ e, listCursor.readJ mk bs = .error e) := by
  match bs with
  | [] => exact .inr ⟨_, rfl⟩
  | r :: rest => exact .inl ⟨r, rest, rfl, rfl⟩

/-- What a format-I read on a list can do. -/
theorem readI_cases (mk : Byte → Half → Instr) (bs : List Byte) :
    (∃ d hi lo rest, bs = d :: hi :: lo :: rest ∧ listCursor.readI mk bs = .ok (mk d (hi ++ lo), rest)) ∨
      (∃ e, listCursor.readI mk bs = .error e) := by
  match bs with
  | [] => exact .inr ⟨_, rfl⟩
  | [_] => exact .inr ⟨_, rfl⟩
  | [_, _] => exact .inr ⟨_, rfl⟩
  | d :: hi :: lo :: rest => exact .inl ⟨d, hi, lo, rest, rfl, rfl⟩

/-- What a format-R or format-C read on a list can do. -/
theorem read3_cases (mk : Byte → Byte → Byte → Instr) (bs : List Byte) :
    (∃ x y z rest, bs = x :: y :: z :: rest ∧ listCursor.read3 mk bs = .ok (mk x y z, rest)) ∨
      (∃ e, listCursor.read3 mk bs = .error e) := by
  match bs with
  | [] => exact .inr ⟨_, rfl⟩
  | [_] => exact .inr ⟨_, rfl⟩
  | [_, _] => exact .inr ⟨_, rfl⟩
  | x :: y :: z :: rest => exact .inl ⟨x, y, z, rest, rfl, rfl⟩

end Sys2Proof
end

