-- ==== Sys2Proof/Laws/Float64.lean ====
section
/-! SUPPORT. What rounding does, on natural numbers: a magnitude is counted in 2^-1074, a binary64's exponent and
fraction fields are read together as one number. -/

namespace Sys2Proof

theorem two_pow_mono {a b : Nat} (h : a ≤ b) : 2 ^ a ≤ 2 ^ b := Nat.pow_le_pow_right (by decide) h

theorem two_pow_of_eq_succ {a b : Nat} (h : a = b + 1) : 2 ^ a = 2 ^ b * 2 := by rw [h, Nat.pow_succ]

/-- The magnitude whose exponent and fraction fields, read together, are `b`. -/
def fieldsMagnitude (b : Nat) : Nat :=
  if b / 2 ^ 52 = 0 then b % 2 ^ 52 else (2 ^ 52 + b % 2 ^ 52) * 2 ^ (b / 2 ^ 52 - 1)

/-- A magnitude of `t` units of 2^k, its last place, has the fields `k * 2^52 + t`. -/
theorem fieldsMagnitude_eq {k t : Nat} (ht : t ≤ 2 ^ 53) (hk : k ≠ 0 → 2 ^ 52 ≤ t) :
    fieldsMagnitude (k * 2 ^ 52 + t) = t * 2 ^ k := by
  unfold fieldsMagnitude
  rcases Nat.lt_or_ge t (2 ^ 52) with h | h
  · have : k = 0 := by by_contra hk0; exact absurd (hk hk0) (by omega)
    subst this
    have h1 : t / 2 ^ 52 = 0 := by omega
    have h2 : t % 2 ^ 52 = t := by omega
    simp only [zero_mul, zero_add, pow_zero, mul_one, h1, h2, if_true]
  · rcases Nat.lt_or_ge t (2 ^ 53) with h' | h'
    · have h1 : (k * 2 ^ 52 + t) / 2 ^ 52 = k + 1 := by omega
      have h2 : (k * 2 ^ 52 + t) % 2 ^ 52 = t - 2 ^ 52 := by omega
      rw [h1, h2, if_neg (Nat.succ_ne_zero _), Nat.add_sub_cancel, Nat.add_sub_cancel' h]
    · have h1 : (k * 2 ^ 52 + t) / 2 ^ 52 = k + 2 := by omega
      have h2 : (k * 2 ^ 52 + t) % 2 ^ 52 = 0 := by omega
      have h3 : t = 2 ^ 53 := by omega
      have h4 : k + 2 - 1 = k + 1 := by omega
      rw [h1, h2, if_neg (Nat.succ_ne_zero _), h4]
      clear h1 h2
      subst h3
      rw [pow_succ 2 k]
      generalize 2 ^ k = p
      ring

@[simp] theorem F64.ofFields_neg (neg : Bool) (b : Nat) : (F64.ofFields neg b).neg = neg := by
  unfold F64.ofFields; split <;> rfl

/-- Fields below the all-ones exponent are those of a finite number, from there on of an infinity. -/
theorem F64.ofFields_isFinite (neg : Bool) (b : Nat) :
    (F64.ofFields neg b).isFinite = decide (b < 2047 * 2 ^ 52) := by
  unfold F64.ofFields
  split
  next h =>
    simp only [F64.isFinite, h, decide_true, bne_iff_ne, ne_eq]
    intro he
    have := congrArg BitVec.toNat he
    simp at this
    omega
  next h => simp only [F64.isFinite, h, decide_false]; rfl

theorem F64.magnitude_ofFields (neg : Bool) {b : Nat} (h : b < 2047 * 2 ^ 52) :
    (F64.ofFields neg b).magnitude = fieldsMagnitude b := by
  have he : b / 2 ^ 52 < 2 ^ 11 := by omega
  have hf : b % 2 ^ 52 < 2 ^ 52 := Nat.mod_lt _ (by decide)
  unfold F64.ofFields F64.magnitude fieldsMagnitude
  rw [if_pos h]
  have h0 : (BitVec.ofNat 11 (b / 2 ^ 52) = 0) ↔ b / 2 ^ 52 = 0 := by
    constructor
    · intro hh; have := congrArg BitVec.toNat hh; rw [BitVec.toNat_ofNat, Nat.mod_eq_of_lt he] at this; simpa using this
    · intro hh; rw [hh]; rfl
  simp only [h0, BitVec.toNat_ofNat, Nat.mod_eq_of_lt he, Nat.mod_eq_of_lt hf]

/-- The last fraction bit of a finite number is the lowest of its fields. -/
theorem F64.lastBit_ofFields (neg : Bool) {b : Nat} (h : b < 2047 * 2 ^ 52) :
    (F64.ofFields neg b).frac.getLsbD 0 = decide (b % 2 = 1) := by
  unfold F64.ofFields
  rw [if_pos h]
  simp only [BitVec.getLsbD_ofNat, Nat.testBit_zero]
  simp only [show (0 < 52) from by decide, decide_true, Bool.true_and]
  congr 1
  apply propext
  omega

/-- A finite number's magnitude is below 2^53 or a multiple of a power of two between 2^52 and 2^53 times. -/
theorem F64.magnitude_cases (v : F64) :
    v.magnitude < 2 ^ 52 ∨ ∃ f e, f < 2 ^ 52 ∧ v.exp.toNat = e + 1 ∧ v.magnitude = (2 ^ 52 + f) * 2 ^ e := by
  unfold F64.magnitude
  split
  · left; exact v.frac.isLt
  · next h =>
    right
    refine ⟨v.frac.toNat, v.exp.toNat - 1, v.frac.isLt, ?_, rfl⟩
    have : v.exp.toNat ≠ 0 := fun h0 => h (BitVec.eq_of_toNat_eq (by simpa using h0))
    omega

/-- The exact value is the signed magnitude, counted in 2^-1074. -/
theorem F64.real_eq (v : F64) : v.real = (if v.neg then -(v.magnitude : ℚ) else v.magnitude) / 2 ^ 1074 := by
  unfold F64.real
  rw [Rat.mkRat_eq_div]
  split <;> simp only [Int.cast_neg, Int.cast_natCast, Nat.cast_pow, Nat.cast_ofNat]

theorem F64.real_posZero : F64.posZero.real = 0 := by
  rw [F64.real_eq]; simp [F64.posZero, F64.magnitude]

theorem F64.real_negZero : F64.negZero.real = 0 := by
  rw [F64.real_eq]; simp [F64.negZero, F64.magnitude]

/-! ### Rounding a quotient to an integer -/

/-- Twice the distance from `n / d` to its rounding is at most 1, as numerators over `d`. -/
theorem roundHalfEven_bounds (n : Nat) {d : Nat} (hd : 0 < d) :
    2 * n ≤ 2 * (roundHalfEven n d * d) + d ∧ 2 * (roundHalfEven n d * d) ≤ 2 * n + d := by
  have h := Nat.div_add_mod n d
  have hr := Nat.mod_lt n hd
  rw [mul_comm] at h
  unfold roundHalfEven
  split
  next hc => rw [Nat.add_mul]; omega
  next hc => omega

/-- Where the distance is exactly a half, the rounding is even. -/
theorem roundHalfEven_tie (n : Nat) {d : Nat} (hd : 0 < d)
    (h : 2 * n = 2 * (roundHalfEven n d * d) + d ∨ 2 * (roundHalfEven n d * d) = 2 * n + d) :
    roundHalfEven n d % 2 = 0 := by
  have h0 := Nat.div_add_mod n d
  have hr := Nat.mod_lt n hd
  rw [mul_comm] at h0
  unfold roundHalfEven at h ⊢
  split at h
  next hc =>
    rw [if_pos hc]
    rw [Nat.add_mul] at h
    omega
  next hc =>
    rw [if_neg hc]
    omega

/-- Rounding is monotone against integers. -/
theorem le_roundHalfEven {n d j : Nat} (hd : 0 < d) (h : j * d ≤ n) : j ≤ roundHalfEven n d := by
  have h1 : j ≤ n / d := (Nat.le_div_iff_mul_le hd).2 h
  unfold roundHalfEven
  split <;> omega

theorem roundHalfEven_le {n d j : Nat} (hd : 0 < d) (h : n ≤ j * d) : roundHalfEven n d ≤ j := by
  have hb := (roundHalfEven_bounds n hd).2
  by_contra hc
  have hj : (j + 1) * d ≤ roundHalfEven n d * d := Nat.mul_le_mul_right d (by omega)
  rw [Nat.add_mul] at hj
  omega

/-- The rounding is a nearest integer: no integer is nearer to `n / d`. -/
theorem roundHalfEven_nearest (n : Nat) {d : Nat} (hd : 0 < d) (j : Nat) :
    |(roundHalfEven n d : ℚ) * d - n| ≤ |(j : ℚ) * d - n| := by
  have ⟨h1, h2⟩ := roundHalfEven_bounds n hd
  set t := roundHalfEven n d with ht
  have h1' : (2 : ℚ) * n ≤ 2 * (t * d) + d := by exact_mod_cast h1
  have h2' : (2 : ℚ) * (t * d) ≤ 2 * n + d := by exact_mod_cast h2
  have hdq : (0 : ℚ) < d := by exact_mod_cast hd
  rcases lt_trichotomy j t with hj | hj | hj
  · have : ((j : ℚ) + 1) * d ≤ t * d := by
      apply mul_le_mul_of_nonneg_right _ hdq.le; exact_mod_cast hj
    rw [abs_le]
    rcases abs_cases ((j : ℚ) * d - n) with ⟨h, _⟩ | ⟨h, _⟩ <;> rw [h] <;> constructor <;> linarith
  · rw [hj]
  · have : ((t : ℚ) + 1) * d ≤ j * d := by
      apply mul_le_mul_of_nonneg_right _ hdq.le; exact_mod_cast hj
    rw [abs_le]
    rcases abs_cases ((j : ℚ) * d - n) with ⟨h, _⟩ | ⟨h, _⟩ <;> rw [h] <;> constructor <;> linarith

/-- If another integer is equally near, the rounding is even. -/
theorem roundHalfEven_even {n d j : Nat} (hd : 0 < d)
    (h : |(j : ℚ) * d - n| = |(roundHalfEven n d : ℚ) * d - n|) (hj : j ≠ roundHalfEven n d) :
    roundHalfEven n d % 2 = 0 := by
  apply roundHalfEven_tie n hd
  have ⟨h1, h2⟩ := roundHalfEven_bounds n hd
  set t := roundHalfEven n d with ht
  have h1' : (2 : ℚ) * n ≤ 2 * (t * d) + d := by exact_mod_cast h1
  have h2' : (2 : ℚ) * (t * d) ≤ 2 * n + d := by exact_mod_cast h2
  have hdq : (0 : ℚ) < d := by exact_mod_cast hd
  have key : (2 : ℚ) * n = 2 * (t * d) + d ∨ (2 : ℚ) * (t * d) = 2 * n + d := by
    rcases lt_or_gt_of_ne hj with hj | hj
    · have : ((j : ℚ) + 1) * d ≤ t * d := by
        apply mul_le_mul_of_nonneg_right _ hdq.le; exact_mod_cast hj
      right
      rcases abs_cases ((j : ℚ) * d - n) with ⟨h3, _⟩ | ⟨h3, _⟩ <;>
        rcases abs_cases ((t : ℚ) * d - n) with ⟨h4, _⟩ | ⟨h4, _⟩ <;> rw [h3, h4] at h <;> linarith
    · have : ((t : ℚ) + 1) * d ≤ j * d := by
        apply mul_le_mul_of_nonneg_right _ hdq.le; exact_mod_cast hj
      left
      rcases abs_cases ((j : ℚ) * d - n) with ⟨h3, _⟩ | ⟨h3, _⟩ <;>
        rcases abs_cases ((t : ℚ) * d - n) with ⟨h4, _⟩ | ⟨h4, _⟩ <;> rw [h3, h4] at h <;> linarith
  rcases key with key | key
  · left; exact_mod_cast key
  · right; exact_mod_cast key

/-- Rounding stays below 2^53 exactly up to, and without, 2^53 − 1/2: the tie there goes to 2^53, which is even. -/
theorem roundHalfEven_lt_iff (n : Nat) {d : Nat} (hd : 0 < d) :
    roundHalfEven n d < 2 ^ 53 ↔ 2 * n < (2 ^ 54 - 1) * d := by
  have ⟨hr1, hr2⟩ := roundHalfEven_bounds n hd
  have htie := roundHalfEven_tie n hd
  generalize roundHalfEven n d = t at *
  rcases Nat.lt_trichotomy t (2 ^ 53 - 1) with ht | ht | ht
  · have hle : (t + 1) * d ≤ (2 ^ 53 - 1) * d := Nat.mul_le_mul_right d (by omega)
    rw [Nat.add_mul] at hle
    constructor <;> intro h <;> omega
  · have hodd : t % 2 = 1 := by omega
    have hne : 2 * n ≠ 2 * (t * d) + d := fun h => by
      have := htie (.inl h)
      rw [this] at hodd
      exact absurd hodd (by decide)
    have hd2 : (2 ^ 54 - 1) * d = 2 * (t * d) + d := by
      rw [show 2 ^ 54 - 1 = 2 * t + 1 by rw [ht]; decide, Nat.add_mul, Nat.mul_assoc, Nat.one_mul]
    rw [hd2]
    exact ⟨fun _ => lt_of_le_of_ne hr1 hne, fun _ => by rw [ht]; decide⟩
  · have hle : 2 ^ 53 * d ≤ t * d := Nat.mul_le_mul_right d (by omega)
    constructor <;> intro h <;> omega

/-! ### Rounding a magnitude to fields -/

/-- The exponent of the last place of a rounding of `n / d`. -/
def lastPlace (n d : Nat) : Nat := (n / d).log2 - 52

/-- The magnitude lies below 2^53 last places, and, off the subnormals, at or above 2^52. -/
theorem lastPlace_bounds (n : Nat) {d : Nat} (hd : 0 < d) :
    n ≤ 2 ^ 53 * (d * 2 ^ lastPlace n d) ∧ (lastPlace n d ≠ 0 → 2 ^ 52 * (d * 2 ^ lastPlace n d) ≤ n) := by
  unfold lastPlace
  set m := n / d with hm
  have hlt : m < 2 ^ (m.log2 + 1) := Nat.lt_log2_self
  have hn : n < (m + 1) * d := by rw [hm]; exact (Nat.div_lt_iff_lt_mul hd).1 (Nat.lt_succ_self _)
  constructor
  · have hle : m + 1 ≤ 2 ^ 53 * 2 ^ (m.log2 - 52) := by
      rw [← pow_add]
      exact hlt.trans_le (two_pow_mono (by omega))
    calc n ≤ (m + 1) * d := hn.le
      _ ≤ 2 ^ 53 * 2 ^ (m.log2 - 52) * d := Nat.mul_le_mul_right d hle
      _ = _ := by ring
  · intro hk
    have hm0 : m ≠ 0 := by intro h; rw [h] at hk; simp at hk
    have hle : 2 ^ 52 * 2 ^ (m.log2 - 52) ≤ m := by
      rw [← pow_add, show 52 + (m.log2 - 52) = m.log2 by omega]
      exact Nat.log2_self_le hm0
    calc 2 ^ 52 * (d * 2 ^ (m.log2 - 52)) = 2 ^ 52 * 2 ^ (m.log2 - 52) * d := by ring
      _ ≤ m * d := Nat.mul_le_mul_right d hle
      _ ≤ n := Nat.div_mul_le_self n d

theorem roundFields_eq (n d : Nat) :
    roundFields n d = lastPlace n d * 2 ^ 52 + roundHalfEven n (d * 2 ^ lastPlace n d) := rfl

/-- The rounding in last places is at most 2^53, and, off the subnormals, at least 2^52. -/
theorem roundHalfEven_lastPlace (n : Nat) {d : Nat} (hd : 0 < d) :
    roundHalfEven n (d * 2 ^ lastPlace n d) ≤ 2 ^ 53 ∧
      (lastPlace n d ≠ 0 → 2 ^ 52 ≤ roundHalfEven n (d * 2 ^ lastPlace n d)) := by
  have hD : 0 < d * 2 ^ lastPlace n d := by positivity
  have ⟨h1, h2⟩ := lastPlace_bounds n hd
  exact ⟨roundHalfEven_le hD h1, fun hk => le_roundHalfEven hD (h2 hk)⟩

/-- The magnitude the rounded fields denote. -/
theorem fieldsMagnitude_roundFields (n : Nat) {d : Nat} (hd : 0 < d) :
    fieldsMagnitude (roundFields n d) = roundHalfEven n (d * 2 ^ lastPlace n d) * 2 ^ lastPlace n d := by
  have ⟨h1, h2⟩ := roundHalfEven_lastPlace n hd
  rw [roundFields_eq, fieldsMagnitude_eq h1 h2]

/-- Rounding overflows exactly from (2^53 − 1/2) last places of the largest binade on, which is 2^1024 − 2^970. -/
theorem roundFields_lt_iff (n : Nat) {d : Nat} (hd : 0 < d) :
    roundFields n d < 2047 * 2 ^ 52 ↔ 2 * n < (2 ^ 54 - 1) * 2 ^ 2045 * d := by
  have hD : 0 < d * 2 ^ lastPlace n d := by positivity
  have ⟨h1, h2⟩ := roundHalfEven_lastPlace n hd
  have ⟨hb1, hb2⟩ := lastPlace_bounds n hd
  rw [roundFields_eq]
  rcases lt_trichotomy (lastPlace n d) 2045 with hk | hk | hk
  · have hF : lastPlace n d * 2 ^ 52 + roundHalfEven n (d * 2 ^ lastPlace n d) < 2047 * 2 ^ 52 := by omega
    have hle : 2 ^ lastPlace n d ≤ 2 ^ 2044 := two_pow_mono (by omega)
    have h3 : n ≤ 2 ^ 53 * (d * 2 ^ 2044) := hb1.trans (Nat.mul_le_mul_left _ (Nat.mul_le_mul_left _ hle))
    have h4 : 2 * (2 ^ 53 * (d * 2 ^ 2044)) < (2 ^ 54 - 1) * 2 ^ 2045 * d := by
      have h5 : (2 : Nat) ^ 2045 = 2 ^ 2044 * 2 := two_pow_of_eq_succ (by omega)
      calc 2 * (2 ^ 53 * (d * 2 ^ 2044)) = 2 ^ 53 * (2 ^ 2045 * d) := by rw [h5]; generalize (2 : Nat) ^ 2044 = p; ring
        _ < (2 ^ 54 - 1) * (2 ^ 2045 * d) := Nat.mul_lt_mul_of_pos_right (by norm_num) (by positivity)
        _ = (2 ^ 54 - 1) * 2 ^ 2045 * d := by rw [Nat.mul_assoc]
    exact ⟨fun _ => (Nat.mul_le_mul_left 2 h3).trans_lt h4, fun _ => hF⟩
  · have hF : lastPlace n d * 2 ^ 52 + roundHalfEven n (d * 2 ^ lastPlace n d) < 2047 * 2 ^ 52 ↔
        roundHalfEven n (d * 2 ^ lastPlace n d) < 2 ^ 53 := by
      constructor <;> intro h <;> omega
    have hR : ∀ p : Nat, (2 ^ 54 - 1) * (d * p) = (2 ^ 54 - 1) * p * d := fun p => by
      rw [Nat.mul_assoc, Nat.mul_comm p d]
    exact hF.trans ((roundHalfEven_lt_iff n hD).trans (by rw [hR (2 ^ lastPlace n d), hk]))
  · have h2' := h2 (by omega)
    have hF : ¬ (lastPlace n d * 2 ^ 52 + roundHalfEven n (d * 2 ^ lastPlace n d) < 2047 * 2 ^ 52) := by omega
    have hle : 2 ^ 2046 ≤ 2 ^ lastPlace n d := two_pow_mono (by omega)
    have h3 : 2 ^ 52 * (d * 2 ^ 2046) ≤ n :=
      (Nat.mul_le_mul_left _ (Nat.mul_le_mul_left _ hle)).trans (hb2 (by omega))
    have h5 : (2 : Nat) ^ 2046 = 2 ^ 2045 * 2 := two_pow_of_eq_succ (by omega)
    have h4 : (2 ^ 54 - 1) * 2 ^ 2045 * d ≤ 2 * (2 ^ 52 * (d * 2 ^ 2046)) := by
      calc (2 ^ 54 - 1) * 2 ^ 2045 * d = (2 ^ 54 - 1) * (2 ^ 2045 * d) := by rw [Nat.mul_assoc]
        _ ≤ 2 ^ 54 * (2 ^ 2045 * d) := Nat.mul_le_mul_right _ (by norm_num)
        _ = 2 * (2 ^ 52 * (d * 2 ^ 2046)) := by rw [h5]; generalize (2 : Nat) ^ 2045 = p; ring
    exact ⟨fun h => absurd h hF, fun h => absurd (h4.trans (Nat.mul_le_mul_left 2 h3)) (Nat.not_le.2 h)⟩

end Sys2Proof
end

