-- ==== Sys2Proof/Laws/State.lean ====
section
/-! SUPPORT. One lemma per field per named update of State, each true by rfl, so that no proof unfolds a record update. -/

namespace Sys2Proof.Machine

variable (s : State)

@[simp] theorem State.setReg_regs (i : RegIdx) (v : F64) : (s.setReg i v).regs = s.regs.set i.toNat v := rfl
@[simp] theorem State.setReg_pc (i : RegIdx) (v : F64) : (s.setReg i v).pc = s.pc := rfl
@[simp] theorem State.setReg_flag (i : RegIdx) (v : F64) : (s.setReg i v).flag = s.flag := rfl
@[simp] theorem State.setReg_status (i : RegIdx) (v : F64) : (s.setReg i v).status = s.status := rfl
@[simp] theorem State.setReg_faultPc (i : RegIdx) (v : F64) : (s.setReg i v).faultPc = s.faultPc := rfl
@[simp] theorem State.setReg_faultDetail (i : RegIdx) (v : F64) : (s.setReg i v).faultDetail = s.faultDetail := rfl
@[simp] theorem State.setReg_prog (i : RegIdx) (v : F64) : (s.setReg i v).prog = s.prog := rfl
@[simp] theorem State.setReg_progLen (i : RegIdx) (v : F64) : (s.setReg i v).progLen = s.progLen := rfl
@[simp] theorem State.setReg_regCount (i : RegIdx) (v : F64) : (s.setReg i v).regCount = s.regCount := by
  simp [State.regCount]

@[simp] theorem State.setPc_regs (t : Word) : (s.setPc t).regs = s.regs := rfl
@[simp] theorem State.setPc_pc (t : Word) : (s.setPc t).pc = t := rfl
@[simp] theorem State.setPc_flag (t : Word) : (s.setPc t).flag = s.flag := rfl
@[simp] theorem State.setPc_status (t : Word) : (s.setPc t).status = s.status := rfl
@[simp] theorem State.setPc_faultPc (t : Word) : (s.setPc t).faultPc = s.faultPc := rfl
@[simp] theorem State.setPc_faultDetail (t : Word) : (s.setPc t).faultDetail = s.faultDetail := rfl
@[simp] theorem State.setPc_prog (t : Word) : (s.setPc t).prog = s.prog := rfl
@[simp] theorem State.setPc_progLen (t : Word) : (s.setPc t).progLen = s.progLen := rfl
@[simp] theorem State.setPc_regCount (t : Word) : (s.setPc t).regCount = s.regCount := rfl

@[simp] theorem State.advance_regs (n : Nat) : (s.advance n).regs = s.regs := rfl
@[simp] theorem State.advance_pc (n : Nat) : (s.advance n).pc = s.pc + BitVec.ofNat 64 n := rfl
@[simp] theorem State.advance_flag (n : Nat) : (s.advance n).flag = s.flag := rfl
@[simp] theorem State.advance_status (n : Nat) : (s.advance n).status = s.status := rfl
@[simp] theorem State.advance_faultPc (n : Nat) : (s.advance n).faultPc = s.faultPc := rfl
@[simp] theorem State.advance_faultDetail (n : Nat) : (s.advance n).faultDetail = s.faultDetail := rfl
@[simp] theorem State.advance_prog (n : Nat) : (s.advance n).prog = s.prog := rfl
@[simp] theorem State.advance_progLen (n : Nat) : (s.advance n).progLen = s.progLen := rfl
@[simp] theorem State.advance_regCount (n : Nat) : (s.advance n).regCount = s.regCount := rfl

@[simp] theorem State.setFlag_regs (b : Bool) : (s.setFlag b).regs = s.regs := rfl
@[simp] theorem State.setFlag_pc (b : Bool) : (s.setFlag b).pc = s.pc := rfl
@[simp] theorem State.setFlag_flag (b : Bool) : (s.setFlag b).flag = b := rfl
@[simp] theorem State.setFlag_status (b : Bool) : (s.setFlag b).status = s.status := rfl
@[simp] theorem State.setFlag_faultPc (b : Bool) : (s.setFlag b).faultPc = s.faultPc := rfl
@[simp] theorem State.setFlag_faultDetail (b : Bool) : (s.setFlag b).faultDetail = s.faultDetail := rfl
@[simp] theorem State.setFlag_prog (b : Bool) : (s.setFlag b).prog = s.prog := rfl
@[simp] theorem State.setFlag_progLen (b : Bool) : (s.setFlag b).progLen = s.progLen := rfl
@[simp] theorem State.setFlag_regCount (b : Bool) : (s.setFlag b).regCount = s.regCount := rfl

@[simp] theorem State.halt_regs : (s.halt).regs = s.regs := rfl
@[simp] theorem State.halt_pc : (s.halt).pc = s.pc := rfl
@[simp] theorem State.halt_flag : (s.halt).flag = s.flag := rfl
@[simp] theorem State.halt_status : (s.halt).status = .halted := rfl
@[simp] theorem State.halt_faultPc : (s.halt).faultPc = s.faultPc := rfl
@[simp] theorem State.halt_faultDetail : (s.halt).faultDetail = s.faultDetail := rfl
@[simp] theorem State.halt_prog : (s.halt).prog = s.prog := rfl
@[simp] theorem State.halt_progLen : (s.halt).progLen = s.progLen := rfl
@[simp] theorem State.halt_regCount : (s.halt).regCount = s.regCount := rfl

@[simp] theorem State.exhaust_regs : (s.exhaust).regs = s.regs := rfl
@[simp] theorem State.exhaust_pc : (s.exhaust).pc = s.pc := rfl
@[simp] theorem State.exhaust_flag : (s.exhaust).flag = s.flag := rfl
@[simp] theorem State.exhaust_status : (s.exhaust).status = .exhausted := rfl
@[simp] theorem State.exhaust_faultPc : (s.exhaust).faultPc = s.faultPc := rfl
@[simp] theorem State.exhaust_faultDetail : (s.exhaust).faultDetail = s.faultDetail := rfl
@[simp] theorem State.exhaust_prog : (s.exhaust).prog = s.prog := rfl
@[simp] theorem State.exhaust_progLen : (s.exhaust).progLen = s.progLen := rfl
@[simp] theorem State.exhaust_regCount : (s.exhaust).regCount = s.regCount := rfl

@[simp] theorem State.takeFault_regs (p : Word) (r : Raise) : (s.takeFault p r).regs = s.regs := rfl
@[simp] theorem State.takeFault_pc (p : Word) (r : Raise) : (s.takeFault p r).pc = s.pc := rfl
@[simp] theorem State.takeFault_flag (p : Word) (r : Raise) : (s.takeFault p r).flag = s.flag := rfl
@[simp] theorem State.takeFault_status (p : Word) (r : Raise) : (s.takeFault p r).status = .fault r.cause := rfl
@[simp] theorem State.takeFault_faultPc (p : Word) (r : Raise) : (s.takeFault p r).faultPc = p := rfl
@[simp] theorem State.takeFault_faultDetail (p : Word) (r : Raise) : (s.takeFault p r).faultDetail = r.info := rfl
@[simp] theorem State.takeFault_prog (p : Word) (r : Raise) : (s.takeFault p r).prog = s.prog := rfl
@[simp] theorem State.takeFault_progLen (p : Word) (r : Raise) : (s.takeFault p r).progLen = s.progLen := rfl
@[simp] theorem State.takeFault_regCount (p : Word) (r : Raise) : (s.takeFault p r).regCount = s.regCount := rfl

@[simp] theorem State.faulted_regs (n : Nat) (c : FaultCause) (w : Word) : (s.faulted n c w).regs = s.regs := rfl
@[simp] theorem State.faulted_pc (n : Nat) (c : FaultCause) (w : Word) : (s.faulted n c w).pc = s.pc + BitVec.ofNat 64 n := rfl
@[simp] theorem State.faulted_flag (n : Nat) (c : FaultCause) (w : Word) : (s.faulted n c w).flag = s.flag := rfl
@[simp] theorem State.faulted_status (n : Nat) (c : FaultCause) (w : Word) : (s.faulted n c w).status = .fault c := rfl
@[simp] theorem State.faulted_faultPc (n : Nat) (c : FaultCause) (w : Word) : (s.faulted n c w).faultPc = s.pc := rfl
@[simp] theorem State.faulted_faultDetail (n : Nat) (c : FaultCause) (w : Word) : (s.faulted n c w).faultDetail = w := rfl
@[simp] theorem State.faulted_prog (n : Nat) (c : FaultCause) (w : Word) : (s.faulted n c w).prog = s.prog := rfl
@[simp] theorem State.faulted_progLen (n : Nat) (c : FaultCause) (w : Word) : (s.faulted n c w).progLen = s.progLen := rfl
@[simp] theorem State.faulted_regCount (n : Nat) (c : FaultCause) (w : Word) : (s.faulted n c w).regCount = s.regCount := rfl

@[simp] theorem State.truncated_regs : (s.truncated).regs = s.regs := rfl
@[simp] theorem State.truncated_pc : (s.truncated).pc = s.progLen := rfl
@[simp] theorem State.truncated_flag : (s.truncated).flag = s.flag := rfl
@[simp] theorem State.truncated_status : (s.truncated).status = .fault .outOfBounds := rfl
@[simp] theorem State.truncated_faultPc : (s.truncated).faultPc = s.pc := rfl
@[simp] theorem State.truncated_faultDetail : (s.truncated).faultDetail = s.progLen := rfl
@[simp] theorem State.truncated_prog : (s.truncated).prog = s.prog := rfl
@[simp] theorem State.truncated_progLen : (s.truncated).progLen = s.progLen := rfl
@[simp] theorem State.truncated_regCount : (s.truncated).regCount = s.regCount := rfl

/-- A fault taken at pc_next is the faulted state of the claims. -/
theorem State.takeFault_advance (n : Nat) (r : Raise) :
    (s.advance n).takeFault s.pc r = s.faulted n r.cause r.info := rfl

@[simp] theorem State.initial_regs (m : Memory) (l : Word) (n : Nat) :
    (State.initial m l n).regs = List.replicate n F64.posZero := rfl
@[simp] theorem State.initial_status (m : Memory) (l : Word) (n : Nat) : (State.initial m l n).status = .running := rfl
@[simp] theorem State.initial_faultPc (m : Memory) (l : Word) (n : Nat) : (State.initial m l n).faultPc = 0 := rfl
@[simp] theorem State.initial_faultDetail (m : Memory) (l : Word) (n : Nat) :
    (State.initial m l n).faultDetail = 0 := rfl
@[simp] theorem State.initial_prog (m : Memory) (l : Word) (n : Nat) : (State.initial m l n).prog = m := rfl
@[simp] theorem State.initial_progLen (m : Memory) (l : Word) (n : Nat) : (State.initial m l n).progLen = l := rfl

end Sys2Proof.Machine
end

