-- ==== Sys2Proof/Laws/Exec.lean ====
section
/-! SUPPORT. What each shared operation of the meanings can do, said once; proofs cite these and do not unfold. -/

namespace Sys2Proof.Machine

variable {s t : State}

/-- A checked read answers the slot's value, or raises RegisterNotFound for an index of N or more. -/
theorem State.readReg_eq (s : State) (i : RegIdx) :
    s.readReg i = match s.regs[i.toNat]? with
      | some v => .ok v
      | none => .error ⟨.registerNotFound, i.setWidth 64⟩ := rfl

theorem State.readReg_of_some {i : RegIdx} {v : F64} (h : s.regs[i.toNat]? = some v) : s.readReg i = .ok v := by
  rw [State.readReg_eq, h]

theorem State.readReg_of_le {i : RegIdx} (h : s.regCount ≤ i.toNat) :
    s.readReg i = .error ⟨.registerNotFound, i.setWidth 64⟩ := by
  rw [State.readReg_eq, List.getElem?_eq_none h]

/-- Below N there is a value. -/
theorem State.getElem?_of_lt {i : RegIdx} (h : i.toNat < s.regCount) : ∃ v, s.regs[i.toNat]? = some v :=
  ⟨s.regs[i.toNat]'h, List.getElem?_eq_getElem h⟩

theorem State.lt_of_getElem? {i : RegIdx} {v : F64} (h : s.regs[i.toNat]? = some v) : i.toNat < s.regCount :=
  (List.getElem?_eq_some_iff.1 h).1

theorem State.writeReg_of_lt {i : RegIdx} (v : F64) (h : i.toNat < s.regCount) : s.writeReg i v = .ok (s.setReg i v) :=
  if_pos h

theorem State.writeReg_of_le {i : RegIdx} (v : F64) (h : s.regCount ≤ i.toNat) :
    s.writeReg i v = .error ⟨.registerNotFound, i.setWidth 64⟩ :=
  if_neg (Nat.not_lt.2 h)

/-- Everything a checked read can do. -/
theorem State.readReg_cases (s : State) (i : RegIdx) :
    (∃ v, s.regs[i.toNat]? = some v ∧ i.toNat < s.regCount ∧ s.readReg i = .ok v) ∨
      (s.regCount ≤ i.toNat ∧ s.readReg i = .error ⟨.registerNotFound, i.setWidth 64⟩) := by
  rcases Nat.lt_or_ge i.toNat s.regCount with h | h
  · obtain ⟨v, hv⟩ := State.getElem?_of_lt h
    exact .inl ⟨v, hv, h, State.readReg_of_some hv⟩
  · exact .inr ⟨h, State.readReg_of_le h⟩

/-- Running a body always answers a next state: the body's, or the fault it raised, taken at pc_next. -/
theorem State.runBody_cases (s : State) (n : Nat) (body : State → Except Raise State) :
    (∃ t, body (s.advance n) = .ok t ∧ s.runBody n body = .next t) ∨
      (∃ r, body (s.advance n) = .error r ∧ s.runBody n body = .next (s.faulted n r.cause r.info)) := by
  unfold State.runBody
  split
  next t h => exact .inl ⟨t, h, rfl⟩
  next r h => exact .inr ⟨r, h, rfl⟩

theorem State.runBody_ok {n : Nat} {body : State → Except Raise State} (h : body (s.advance n) = .ok t) :
    s.runBody n body = .next t := by
  unfold State.runBody; rw [h]

theorem State.runBody_error {n : Nat} {body : State → Except Raise State} {r : Raise}
    (h : body (s.advance n) = .error r) : s.runBody n body = .next (s.faulted n r.cause r.info) := by
  unfold State.runBody; rw [h]; rfl

theorem State.runBody_raise {n : Nat} {body : State → Except Raise State} {c : FaultCause} {w : Word}
    (h : body (s.advance n) = .error ⟨c, w⟩) : s.runBody n body = .next (s.faulted n c w) :=
  State.runBody_error h

/-- Everything the shared arithmetic handler can do. -/
theorem arith_cases (op : ArithOp) (a b d : RegIdx) (s : State) :
    (∃ x y, s.regs[a.toNat]? = some x ∧ s.regs[b.toNat]? = some y ∧ ¬ (op = .fdiv ∧ y.real = 0) ∧
      (op.apply x y).isFinite = true ∧ d.toNat < s.regCount ∧ arith op a b d s = .ok (s.setReg d (op.apply x y))) ∨
    (∃ r, arith op a b d s = .error r ∧
      ((r = ⟨.registerNotFound, a.setWidth 64⟩ ∧ s.regCount ≤ a.toNat) ∨
       (r = ⟨.registerNotFound, b.setWidth 64⟩ ∧ s.regCount ≤ b.toNat) ∨
       (r = ⟨.divisionByZero, b.setWidth 64⟩ ∧ op = .fdiv ∧ b.toNat < s.regCount) ∨
       (r = ⟨.arithmeticOverflow, d.setWidth 64⟩) ∨
       (r = ⟨.registerNotFound, d.setWidth 64⟩ ∧ s.regCount ≤ d.toNat))) := by
  unfold arith
  rcases s.readReg_cases a with ⟨x, hx, -, ha⟩ | ⟨h, ha⟩
  · rcases s.readReg_cases b with ⟨y, hy, hlt, hb⟩ | ⟨h, hb⟩
    · simp only [ha, hb, bind, Except.bind]
      split
      next h => exact .inr ⟨_, rfl, by simp [h.1, hlt]⟩
      next h =>
        split
        next hf =>
          rcases Nat.lt_or_ge d.toNat s.regCount with hd | hd
          · exact .inl ⟨x, y, hx, hy, h, hf, hd, State.writeReg_of_lt _ hd⟩
          · exact .inr ⟨_, State.writeReg_of_le _ hd, by simp [hd]⟩
        next => exact .inr ⟨_, rfl, by simp⟩
    · exact .inr ⟨⟨.registerNotFound, b.setWidth 64⟩, by simp only [ha, hb, bind, Except.bind], by simp [h]⟩
  · exact .inr ⟨⟨.registerNotFound, a.setWidth 64⟩, by simp only [ha, bind, Except.bind], by simp [h]⟩

/-- Everything the shared comparison handler can do. -/
theorem compareRegs_cases (c : Cmp) (a b : RegIdx) (s : State) :
    (∃ x y, s.regs[a.toNat]? = some x ∧ s.regs[b.toNat]? = some y ∧
      compareRegs c a b s = .ok (s.setFlag (c.holds x.real y.real))) ∨
    (∃ r, compareRegs c a b s = .error r ∧
      ((r = ⟨.registerNotFound, a.setWidth 64⟩ ∧ s.regCount ≤ a.toNat) ∨
       (r = ⟨.registerNotFound, b.setWidth 64⟩ ∧ s.regCount ≤ b.toNat))) := by
  unfold compareRegs
  rcases s.readReg_cases a with ⟨x, hx, -, ha⟩ | ⟨h, ha⟩
  · rcases s.readReg_cases b with ⟨y, hy, -, hb⟩ | ⟨h, hb⟩
    · exact .inl ⟨x, y, hx, hy, by simp only [ha, hb, bind, Except.bind]⟩
    · exact .inr ⟨⟨.registerNotFound, b.setWidth 64⟩, by simp only [ha, hb, bind, Except.bind], by simp [h]⟩
  · exact .inr ⟨⟨.registerNotFound, a.setWidth 64⟩, by simp only [ha, bind, Except.bind], by simp [h]⟩

/-- A target that is a natural number below 2^64 is that position. -/
theorem toPos_of_nat {q : Rat} {k : Nat} (r : RegIdx) (hk : k < 2 ^ 64) (h : q = k) :
    toPos q r = .ok (BitVec.ofNat 64 k) := by
  subst h
  unfold toPos
  rw [if_pos]
  · simp
  · refine ⟨by simp, by simp, ?_⟩
    simp only [Rat.num_natCast]
    omega

/-- Any other target is refused. -/
theorem toPos_of_not_nat {q : Rat} (r : RegIdx) (h : ∀ k : Nat, k < 2 ^ 64 → q ≠ k) :
    toPos q r = .error ⟨.badJumpTarget, r.setWidth 64⟩ := by
  unfold toPos
  rw [if_neg]
  rintro ⟨h1, h2, h3⟩
  refine h q.num.toNat (by omega) ?_
  have hq : (q.num : ℚ) = q := (Rat.den_eq_one_iff q).1 h1
  rw [← Int.cast_natCast, Int.toNat_of_nonneg h2, hq]

/-- Everything a target check can do. -/
theorem toPos_cases (q : Rat) (r : RegIdx) :
    (∃ k : Nat, k < 2 ^ 64 ∧ q = k ∧ toPos q r = .ok (BitVec.ofNat 64 k)) ∨
      ((∀ k : Nat, k < 2 ^ 64 → q ≠ k) ∧ toPos q r = .error ⟨.badJumpTarget, r.setWidth 64⟩) := by
  by_cases h : ∃ k : Nat, k < 2 ^ 64 ∧ q = k
  · obtain ⟨k, hk, hq⟩ := h
    exact .inl ⟨k, hk, hq, toPos_of_nat r hk hq⟩
  · have h' : ∀ k : Nat, k < 2 ^ 64 → q ≠ k := fun k hk hq => h ⟨k, hk, hq⟩
    exact .inr ⟨h', toPos_of_not_nat r h'⟩

theorem jumpTo_of_nat {q : Rat} {k : Nat} (r : RegIdx) (s : State) (hk : k < 2 ^ 64) (h : q = k) :
    jumpTo q r s = .ok (s.setPc (BitVec.ofNat 64 k)) := by
  unfold jumpTo
  simp only [toPos_of_nat r hk h, bind, Except.bind]

theorem jumpTo_of_not_nat {q : Rat} (r : RegIdx) (s : State) (h : ∀ k : Nat, k < 2 ^ 64 → q ≠ k) :
    jumpTo q r s = .error ⟨.badJumpTarget, r.setWidth 64⟩ := by
  unfold jumpTo
  simp only [toPos_of_not_nat r h, bind, Except.bind]

/-- Everything a taken jump can do: pc is set, or BadJumpTarget raised. -/
theorem jumpTo_cases (q : Rat) (r : RegIdx) (s : State) :
    (∃ p, jumpTo q r s = .ok (s.setPc p)) ∨ jumpTo q r s = .error ⟨.badJumpTarget, r.setWidth 64⟩ := by
  rcases toPos_cases q r with ⟨k, hk, hq, -⟩ | ⟨h, -⟩
  · exact .inl ⟨_, jumpTo_of_nat r s hk hq⟩
  · exact .inr (jumpTo_of_not_nat r s h)

/-- Everything an absolute jump can do. -/
theorem jumpAbsolute_cases (taken : Bool → Bool) (r : RegIdx) (s : State) :
    (∃ p, jumpAbsolute taken r s = .ok (s.setPc p)) ∨
    (taken s.flag = false ∧ jumpAbsolute taken r s = .ok s) ∨
    (∃ e, jumpAbsolute taken r s = .error e ∧
      ((e = ⟨.registerNotFound, r.setWidth 64⟩ ∧ s.regCount ≤ r.toNat) ∨
       (e = ⟨.badJumpTarget, r.setWidth 64⟩ ∧ r.toNat < s.regCount))) := by
  unfold jumpAbsolute
  rcases s.readReg_cases r with ⟨v, hv, hlt, hr⟩ | ⟨h, hr⟩
  · simp only [hr, bind, Except.bind]
    split
    next h =>
      rcases jumpTo_cases v.real r s with ⟨p, hp⟩ | hp
      · exact .inl ⟨p, hp⟩
      · exact .inr (.inr ⟨_, hp, by simp [hlt]⟩)
    next h => exact .inr (.inl ⟨by simpa using h, rfl⟩)
  · exact .inr (.inr ⟨⟨.registerNotFound, r.setWidth 64⟩, by simp only [hr, bind, Except.bind], by simp [h]⟩)

/-- Everything a relative jump can do. -/
theorem jumpRelative_cases (target : Rat → Rat → Rat) (r : RegIdx) (s : State) :
    (∃ p, jumpRelative target r s = .ok (s.setPc p)) ∨
    (∃ e, jumpRelative target r s = .error e ∧
      ((e = ⟨.registerNotFound, r.setWidth 64⟩ ∧ s.regCount ≤ r.toNat) ∨
       (e = ⟨.badJumpTarget, r.setWidth 64⟩ ∧ r.toNat < s.regCount))) := by
  unfold jumpRelative
  rcases s.readReg_cases r with ⟨v, hv, hlt, hr⟩ | ⟨h, hr⟩
  · simp only [hr, bind, Except.bind]
    rcases jumpTo_cases (target (addrValue s.pc) v.real) r s with ⟨p, hp⟩ | hp
    · exact .inl ⟨p, hp⟩
    · exact .inr ⟨_, hp, by simp [hlt]⟩
  · exact .inr ⟨⟨.registerNotFound, r.setWidth 64⟩, by simp only [hr, bind, Except.bind], by simp [h]⟩

/-- What a meaning that raises no fault can do to the state at pc_next `u`: write one register with a finite value, set
the flag, set pc, halt, or nothing. -/
inductive Effect (i : Instr) (u : State) : State → Prop
  | nothing : Effect i u u
  | register {d : RegIdx} {v : F64} (hd : i.writes = [d]) (hv : v.isFinite = true) (hlt : d.toNat < u.regCount) :
      Effect i u (u.setReg d v)
  | flag {b : Bool} (hc : i.isComparison = true) : Effect i u (u.setFlag b)
  | jump {p : Word} (hj : i.isJump = true) : Effect i u (u.setPc p)
  | halt (hi : i = .hlt) : Effect i u u.halt

/-- Which raise a meaning can make, and what it says (R200, R203). -/
inductive Raises (i : Instr) (u : State) : Raise → Prop
  | registerNotFound {r : RegIdx} (hr : r ∈ i.names) (h : u.regCount ≤ r.toNat) :
      Raises i u ⟨.registerNotFound, r.setWidth 64⟩
  | divisionByZero {r : RegIdx} (hl : i.length = 4) (h : r.toNat < u.regCount) :
      Raises i u ⟨.divisionByZero, r.setWidth 64⟩
  | badJumpTarget {r : RegIdx} (hl : i.length = 2) (h : r.toNat < u.regCount) :
      Raises i u ⟨.badJumpTarget, r.setWidth 64⟩
  | arithmeticOverflow {r : RegIdx} (hl : i.length = 4) : Raises i u ⟨.arithmeticOverflow, r.setWidth 64⟩

/-- A value `f64(k)` is finite for every immediate. -/
theorem F64.ofNat_isFinite {k : Nat} (hk : k < 2 ^ 53) : (F64.ofNat k).isFinite = true := by
  unfold F64.ofNat
  split
  · rfl
  · next h =>
    simp only [F64.isFinite, bne_iff_ne, ne_eq]
    intro he
    have h1 := congrArg BitVec.toNat he
    have h2 : k.log2 < 53 := (Nat.log2_lt h).2 hk
    simp at h1
    omega

theorem immValue_isFinite (imm : Half) : (immValue imm).isFinite = true :=
  F64.ofNat_isFinite (imm.isLt.trans (by decide))

/-- Everything `exec` can do (R13, R202): the effect of the instruction on the state at pc_next, or its fault. -/
theorem exec_cases (i : Instr) (s : State) :
    (∃ t, Effect i (s.advance i.length) t ∧ exec i s = .next t) ∨
      (∃ r, Raises i (s.advance i.length) r ∧ exec i s = .next (s.faulted i.length r.cause r.info)) := by
  have harith : ∀ (op : ArithOp) (a b d : RegIdx) (j : Instr), j.length = 4 → j.writes = [d] → j.names = [a, b, d] →
      (∃ t, Effect j (s.advance 4) t ∧ s.runBody 4 (arith op a b d) = .next t) ∨
      (∃ r, Raises j (s.advance 4) r ∧ s.runBody 4 (arith op a b d) = .next (s.faulted 4 r.cause r.info)) := by
    intro op a b d j hl hw hn
    rcases arith_cases op a b d (s.advance 4) with ⟨x, y, -, -, -, hf, hd, he⟩ | ⟨r, he, hr⟩
    · exact .inl ⟨_, .register hw hf hd, State.runBody_ok he⟩
    · refine .inr ⟨r, ?_, State.runBody_error he⟩
      rcases hr with ⟨rfl, h⟩ | ⟨rfl, h⟩ | ⟨rfl, -, h⟩ | rfl | ⟨rfl, h⟩
      · exact .registerNotFound (by simp [hn]) h
      · exact .registerNotFound (by simp [hn]) h
      · exact .divisionByZero hl h
      · exact .arithmeticOverflow hl
      · exact .registerNotFound (by simp [hn]) h
  have hcmp : ∀ (c : Cmp) (a b : RegIdx) (j : Instr), j.isComparison = true → j.names = [a, b] →
      (∃ t, Effect j (s.advance 4) t ∧ s.runBody 4 (compareRegs c a b) = .next t) ∨
      (∃ r, Raises j (s.advance 4) r ∧ s.runBody 4 (compareRegs c a b) = .next (s.faulted 4 r.cause r.info)) := by
    intro c a b j hc hn
    rcases compareRegs_cases c a b (s.advance 4) with ⟨x, y, -, -, he⟩ | ⟨r, he, hr⟩
    · exact .inl ⟨_, .flag hc, State.runBody_ok he⟩
    · refine .inr ⟨r, ?_, State.runBody_error he⟩
      rcases hr with ⟨rfl, h⟩ | ⟨rfl, h⟩ <;> exact .registerNotFound (by simp [hn]) h
  have habs : ∀ (p : Bool → Bool) (r : RegIdx) (j : Instr), j.isJump = true → j.length = 2 → j.names = [r] →
      (∃ t, Effect j (s.advance 2) t ∧ s.runBody 2 (jumpAbsolute p r) = .next t) ∨
      (∃ e, Raises j (s.advance 2) e ∧ s.runBody 2 (jumpAbsolute p r) = .next (s.faulted 2 e.cause e.info)) := by
    intro p r j hj hl hn
    rcases jumpAbsolute_cases p r (s.advance 2) with ⟨q, he⟩ | ⟨-, he⟩ | ⟨e, he, hr⟩
    · exact .inl ⟨_, .jump hj, State.runBody_ok he⟩
    · exact .inl ⟨_, .nothing, State.runBody_ok he⟩
    · refine .inr ⟨e, ?_, State.runBody_error he⟩
      rcases hr with ⟨rfl, h⟩ | ⟨rfl, h⟩
      · exact .registerNotFound (by simp [hn]) h
      · exact .badJumpTarget hl h
  have hrel : ∀ (f : Rat → Rat → Rat) (r : RegIdx) (j : Instr), j.isJump = true → j.length = 2 → j.names = [r] →
      (∃ t, Effect j (s.advance 2) t ∧ s.runBody 2 (jumpRelative f r) = .next t) ∨
      (∃ e, Raises j (s.advance 2) e ∧ s.runBody 2 (jumpRelative f r) = .next (s.faulted 2 e.cause e.info)) := by
    intro f r j hj hl hn
    rcases jumpRelative_cases f r (s.advance 2) with ⟨q, he⟩ | ⟨e, he, hr⟩
    · exact .inl ⟨_, .jump hj, State.runBody_ok he⟩
    · refine .inr ⟨e, ?_, State.runBody_error he⟩
      rcases hr with ⟨rfl, h⟩ | ⟨rfl, h⟩
      · exact .registerNotFound (by simp [hn]) h
      · exact .badJumpTarget hl h
  cases i with
  | nop => exact .inl ⟨_, .nothing, rfl⟩
  | hlt => exact .inl ⟨_, .halt rfl, rfl⟩
  | load d imm =>
    rcases Nat.lt_or_ge d.toNat s.regCount with h | h
    · exact .inl ⟨_, .register rfl (immValue_isFinite imm) h, State.runBody_ok (n := 4)
        (body := fun u => u.writeReg d (immValue imm)) (State.writeReg_of_lt (s := s.advance 4) _ h)⟩
    · exact .inr ⟨_, .registerNotFound (by simp [Instr.names, Instr.writes]) h, State.runBody_error (n := 4)
        (body := fun u => u.writeReg d (immValue imm)) (State.writeReg_of_le (s := s.advance 4) _ h)⟩
  | add a b d => exact harith .fadd a b d _ rfl rfl rfl
  | sub a b d => exact harith .fsub a b d _ rfl rfl rfl
  | mul a b d => exact harith .fmul a b d _ rfl rfl rfl
  | truediv a b d => exact harith .fdiv a b d _ rfl rfl rfl
  | eq a b p => exact hcmp .eq a b _ rfl rfl
  | ne a b p => exact hcmp .ne a b _ rfl rfl
  | gt a b p => exact hcmp .gt a b _ rfl rfl
  | lt a b p => exact hcmp .lt a b _ rfl rfl
  | ge a b p => exact hcmp .ge a b _ rfl rfl
  | le a b p => exact hcmp .le a b _ rfl rfl
  | jmp r => exact habs _ r _ rfl rfl rfl
  | jmpf r => exact hrel _ r _ rfl rfl rfl
  | jmpb r => exact hrel _ r _ rfl rfl rfl
  | jeq r => exact habs _ r _ rfl rfl rfl
  | jne r => exact habs _ r _ rfl rfl rfl

end Sys2Proof.Machine
end

