-- ==== Sys2Proof/Laws/Memory.lean ====
section
/-! SUPPORT. The program buffer as plain data: reading after writing, and every operation keeps the canonical form. -/

namespace Sys2Proof.Machine

@[simp] theorem Memory.read_nil (a : Nat) : Memory.read [] a = unlistedByte := rfl

theorem Memory.read_pair (k : Nat) (c : Byte) (m : Memory) (a : Nat) :
    Memory.read ((k, c) :: m) a = if k = a then c else m.read a := rfl

/-- Reading below every listed address finds nothing. -/
theorem Memory.read_below {m : Memory} {a : Nat} (h : ∀ c ∈ m, a < c.1) : m.read a = unlistedByte := by
  induction m with
  | nil => rfl
  | cons c m ih =>
    obtain ⟨k, b⟩ := c
    have hk := h (k, b) (by simp)
    rw [Memory.read_pair, if_neg (by simp at hk; omega)]
    exact ih fun c hc => h c (by simp [hc])

theorem Memory.read_cons (a : Nat) (b : Byte) (m : Memory) (hm : ∀ c ∈ m, a < c.1) (x : Nat) :
    (Memory.cons a b m).read x = if x = a then b else m.read x := by
  unfold Memory.cons
  by_cases hb : b = unlistedByte
  · by_cases hx : x = a
    · subst hx; simp [hb, Memory.read_below hm]
    · simp [hb, hx]
  · simp [hb, Memory.read_pair, eq_comm]

/-- A canonical memory's tail is canonical, and its head lies below the tail. -/
theorem Memory.wf_pair {k : Nat} {c : Byte} {m : Memory} :
    Memory.wf ((k, c) :: m) ↔ (∀ x ∈ m, k < x.1) ∧ c ≠ unlistedByte ∧ m.wf := by
  simp only [Memory.wf, List.pairwise_cons, List.forall_mem_cons]
  tauto

theorem Memory.wf_cons {a : Nat} {b : Byte} {m : Memory} (hm : ∀ x ∈ m, a < x.1) (h : m.wf) :
    (Memory.cons a b m).wf := by
  unfold Memory.cons
  split
  · exact h
  · exact Memory.wf_pair.2 ⟨hm, ‹_›, h⟩

theorem Memory.mem_cons {a : Nat} {b : Byte} {m : Memory} {x : Host.Cell} (h : x ∈ Memory.cons a b m) :
    x.1 = a ∨ x ∈ m := by
  unfold Memory.cons at h
  split at h
  · exact .inr h
  · rcases List.mem_cons.1 h with rfl | h
    · exact .inl rfl
    · exact .inr h

/-- A write lists no address but its own. -/
theorem Memory.mem_write {m : Memory} {a : Nat} {b : Byte} {x : Host.Cell} (h : x ∈ m.write a b) :
    x.1 = a ∨ x ∈ m := by
  induction m with
  | nil => exact Memory.mem_cons h
  | cons c m ih =>
    obtain ⟨k, c⟩ := c
    simp only [Memory.write] at h
    split at h
    · exact Memory.mem_cons h
    · split at h
      · exact (Memory.mem_cons h).imp_right (List.mem_cons_of_mem _)
      · rcases List.mem_cons.1 h with rfl | h
        · simp
        · exact (ih h).imp_right (List.mem_cons_of_mem _)

/-- A write keeps the canonical form. -/
theorem Memory.wf_write {m : Memory} (a : Nat) (b : Byte) (h : m.wf) : (m.write a b).wf := by
  induction m with
  | nil => exact Memory.wf_cons (by simp) h
  | cons c m ih =>
    obtain ⟨k, c⟩ := c
    have ⟨hk, hc, hm⟩ := Memory.wf_pair.1 h
    simp only [Memory.write]
    split
    next hlt =>
      refine Memory.wf_cons (fun x hx => ?_) h
      rcases List.mem_cons.1 hx with rfl | hx
      · exact hlt
      · exact hlt.trans (hk x hx)
    next hlt =>
      split
      next heq => subst heq; exact Memory.wf_cons hk hm
      next hne =>
        refine Memory.wf_pair.2 ⟨fun x hx => ?_, hc, ih hm⟩
        rcases Memory.mem_write hx with rfl | hx
        · omega
        · exact hk x hx

/-- Reading after a write: the byte written at its own address, the old byte elsewhere. -/
theorem Memory.read_write {m : Memory} (h : m.wf) (a : Nat) (b : Byte) (x : Nat) :
    (m.write a b).read x = if x = a then b else m.read x := by
  induction m with
  | nil => exact Memory.read_cons a b [] (by simp) x
  | cons c m ih =>
    obtain ⟨k, c⟩ := c
    have ⟨hk, hc, hm⟩ := Memory.wf_pair.1 h
    simp only [Memory.write]
    split
    next hlt =>
      refine Memory.read_cons a b _ (fun y hy => ?_) x
      rcases List.mem_cons.1 hy with rfl | hy
      · exact hlt
      · exact hlt.trans (hk y hy)
    next hlt =>
      split
      next heq =>
        subst heq
        rw [Memory.read_cons a b m hk, Memory.read_pair]
        by_cases hx : x = a
        · simp [hx]
        · simp [hx, Ne.symm hx]
      next hne =>
        rw [Memory.read_pair, Memory.read_pair, ih hm]
        by_cases hx : k = x
        · have : x ≠ a := by omega
          simp [hx, this]
        · simp [hx]

theorem Memory.wf_writeBytes {m : Memory} (a : Nat) (bs : List Byte) (h : m.wf) : (m.writeBytes a bs).wf := by
  induction bs generalizing m a with
  | nil => exact h
  | cons b bs ih => exact ih _ (Memory.wf_write a b h)

/-- Reading after consecutive bytes were written. -/
theorem Memory.read_writeBytes {m : Memory} (h : m.wf) (a : Nat) (bs : List Byte) (x : Nat) :
    (m.writeBytes a bs).read x = if a ≤ x then (bs[x - a]?).getD (m.read x) else m.read x := by
  induction bs generalizing m a with
  | nil => simp [Memory.writeBytes]
  | cons b bs ih =>
    rw [Memory.writeBytes, ih (Memory.wf_write a b h), Memory.read_write h]
    by_cases hx : x = a
    · subst hx; simp
    · by_cases hle : a ≤ x
      · have h1 : a + 1 ≤ x := by omega
        have h2 : x - a = (x - (a + 1)) + 1 := by omega
        simp [h1, hle, hx, h2]
      · have h1 : ¬ a + 1 ≤ x := by omega
        simp [h1, hle, hx]

theorem Memory.mem_writeBytes {m : Memory} {a : Nat} {bs : List Byte} {x : Host.Cell} (h : x ∈ m.writeBytes a bs) :
    (a ≤ x.1 ∧ x.1 < a + bs.length) ∨ x ∈ m := by
  induction bs generalizing m a with
  | nil => exact .inr h
  | cons b bs ih =>
    rw [Memory.writeBytes] at h
    rcases ih h with h | h
    · left; simp only [List.length_cons]; omega
    · rcases Memory.mem_write h with h | h
      · left; simp only [List.length_cons]; omega
      · exact .inr h

theorem Memory.wf_nil : Memory.wf [] := by simp [Memory.wf]

theorem Memory.wf_ofBytes (bs : List Byte) : (Memory.ofBytes bs).wf := Memory.wf_writeBytes 0 bs Memory.wf_nil

/-- A one-byte MemRead is the byte there. -/
@[simp] theorem memRead_one (m : Memory) (a : Nat) : BitVec.ofNat 8 (memRead m a 1) = m.read a := by
  simp [memRead]

/-- A two-byte MemRead is the two bytes, the one at the lower address the more significant. -/
@[simp] theorem memRead_two (m : Memory) (a : Nat) :
    BitVec.ofNat 16 (memRead m a 2) = m.read a ++ m.read (a + 1) := by
  apply BitVec.eq_of_toNat_eq
  have h1 := (m.read a).isLt
  have h2 := (m.read (a + 1)).isLt
  rw [BitVec.toNat_append, ← Nat.shiftLeft_add_eq_or_of_lt h2]
  simp only [memRead, BitVec.toNat_ofNat, Nat.shiftLeft_eq]
  simp
  omega

end Sys2Proof.Machine
end

