-- ==== Sys2Proof/Laws/Fetch.lean ====
section
/-! SUPPORT. The fetch unit beside the list decoder: the same bytes, one after another. -/

namespace Sys2Proof.Machine

@[simp] theorem State.advance_advance (s : State) (m n : Nat) : (s.advance m).advance n = s.advance (m + n) := by
  simp [State.advance, State.setPc, BitVec.ofNat_add, BitVec.add_assoc]

@[simp] theorem State.advance_zero (s : State) : s.advance 0 = s := by
  simp [State.advance, State.setPc]

/-- Advancing within the program does not wrap. -/
theorem State.advance_pc_toNat {s : State} {n : Nat} (h : s.pc.toNat + n ≤ s.progLen.toNat) :
    (s.advance n).pc.toNat = s.pc.toNat + n := by
  have := s.progLen.isLt
  simp only [State.advance_pc, BitVec.toNat_add, BitVec.toNat_ofNat]
  omega

/-- Advancing to exactly the end leaves pc at L. -/
theorem State.advance_to_end {s : State} {n : Nat} (h : s.pc.toNat + n = s.progLen.toNat) :
    s.advance n = { s with pc := s.progLen } := by
  have hp : s.pc + BitVec.ofNat 64 n = s.progLen := by
    apply BitVec.eq_of_toNat_eq
    exact (State.advance_pc_toNat h.le).trans h
  simp [State.advance, State.setPc, hp]

theorem State.fetchByte_ok {s : State} (h : s.pc.toNat < s.progLen.toNat) :
    s.fetchByte = .ok (s.prog.read s.pc.toNat, s.advance 1) := by
  unfold State.fetchByte
  rw [if_neg (by simpa [BitVec.le_def] using h), memRead_one]

theorem State.fetchByte_error {s : State} (h : s.progLen.toNat ≤ s.pc.toNat) :
    s.fetchByte = .error (⟨.outOfBounds, s.pc⟩, s) := by
  unfold State.fetchByte
  rw [if_pos (by simpa [BitVec.le_def] using h)]
  rfl

theorem State.fetchWord_ok {s : State} (h : s.pc.toNat + 2 ≤ s.progLen.toNat) :
    s.fetchWord = .ok (s.prog.read s.pc.toNat ++ s.prog.read (s.pc.toNat + 1), s.advance 2) := by
  unfold State.fetchWord
  rw [if_neg (by omega), memRead_two]

theorem State.fetchWord_error {s : State} (h : s.progLen.toNat < s.pc.toNat + 2) :
    s.fetchWord = .error (⟨.outOfBounds, s.pc⟩, s) := by
  unfold State.fetchWord
  rw [if_pos h]
  rfl

/-- The next `n` bytes at pc, as far as the program has them. -/
def State.window (s : State) (n : Nat) : List Byte :=
  (List.range (min n (s.progLen.toNat - s.pc.toNat))).map fun k => s.prog.read (s.pc.toNat + k)

theorem State.bytesAtPc_eq (s : State) : s.bytesAtPc = s.window 4 := rfl

@[simp] theorem State.window_zero (s : State) : s.window 0 = [] := by simp [State.window]

theorem State.window_end {s : State} {n : Nat} (h : s.progLen.toNat ≤ s.pc.toNat) : s.window n = [] := by
  simp [State.window, Nat.sub_eq_zero_of_le h]

theorem State.window_succ {s : State} {n : Nat} (h : s.pc.toNat < s.progLen.toNat) :
    s.window (n + 1) = s.prog.read s.pc.toNat :: (s.advance 1).window n := by
  have hp : (s.advance 1).pc.toNat = s.pc.toNat + 1 := State.advance_pc_toNat (by omega)
  have hm : min (n + 1) (s.progLen.toNat - s.pc.toNat) = min n (s.progLen.toNat - (s.pc.toNat + 1)) + 1 := by omega
  unfold State.window
  rw [hm, List.range_succ_eq_map, hp]
  simp only [List.map_cons, List.map_map, State.advance_progLen, State.advance_prog, Nat.add_zero]
  congr 1
  apply List.map_congr_left
  intro k _
  simp only [Function.comp_apply, Nat.succ_eq_add_one]
  congr 1
  omega

/-- Advancing within the program: what follows reads at the next address. -/
theorem State.advance_lt {s : State} {n : Nat} (h : s.pc.toNat + n < s.progLen.toNat) :
    (s.advance n).pc.toNat < (s.advance n).progLen.toNat := by
  rw [State.advance_pc_toNat h.le]; exact h

theorem State.advance_ge {s : State} {n : Nat} (h : s.pc.toNat + n = s.progLen.toNat) :
    (s.advance n).progLen.toNat ≤ (s.advance n).pc.toNat := by
  rw [State.advance_pc_toNat h.le]; exact h.ge

/-- At the end of the program a byte fetch raises OutOfBounds(L). -/
theorem State.fetchByte_at_end {s : State} {n : Nat} (h : s.pc.toNat + n = s.progLen.toNat) :
    (s.advance n).fetchByte = .error (⟨.outOfBounds, s.progLen⟩, { s with pc := s.progLen }) := by
  rw [State.fetchByte_error (State.advance_ge h), State.advance_to_end h]

/-- A format-J read of the machine and of the decoder, side by side. -/
theorem fetch_readJ (mk : Byte → Instr) (s : State) (h0 : s.pc.toNat ≤ s.progLen.toNat) (n : Nat) :
    (s.pc.toNat + 1 ≤ s.progLen.toNat ∧ ∃ i, listCursor.readJ mk (s.window (n + 1)) = .ok (i, (s.advance 1).window n) ∧
      fetchCursor.readJ mk s = .ok (i, s.advance 1) ∧ ∃ r, i = mk r) ∨
    (s.progLen.toNat < s.pc.toNat + 1 ∧ listCursor.readJ mk (s.window (n + 1)) = .error (.outOfBytes 0) ∧
      fetchCursor.readJ mk s = .error (⟨.outOfBounds, s.progLen⟩, { s with pc := s.progLen })) := by
  rcases Nat.lt_or_ge s.pc.toNat s.progLen.toNat with h | h
  · left
    refine ⟨h, mk (s.prog.read s.pc.toNat), ?_, ?_, _, rfl⟩
    · rw [State.window_succ h]; rfl
    · simp only [Cursor.readJ, fetchCursor, State.fetchByte_ok h, bind, Except.bind]
  · right
    have f := State.fetchByte_at_end (s := s) (n := 0) (by omega)
    refine ⟨by omega, by rw [State.window_end h]; rfl, ?_⟩
    simp only [State.advance_zero] at f
    simp only [Cursor.readJ, fetchCursor, f, bind, Except.bind]

/-- A format-R or format-C read of the machine and of the decoder, side by side. -/
theorem fetch_read3 (mk : Byte → Byte → Byte → Instr) (s : State) (h0 : s.pc.toNat ≤ s.progLen.toNat) (n : Nat) :
    (s.pc.toNat + 3 ≤ s.progLen.toNat ∧ ∃ i, listCursor.read3 mk (s.window (n + 3)) = .ok (i, (s.advance 3).window n) ∧
      fetchCursor.read3 mk s = .ok (i, s.advance 3) ∧ ∃ x y z, i = mk x y z) ∨
    (s.progLen.toNat < s.pc.toNat + 3 ∧ listCursor.read3 mk (s.window (n + 3)) = .error (.outOfBytes 0) ∧
      fetchCursor.read3 mk s = .error (⟨.outOfBounds, s.progLen⟩, { s with pc := s.progLen })) := by
  rcases Nat.lt_or_ge s.pc.toNat s.progLen.toNat with h1 | h1
  · have f1 := State.fetchByte_ok h1
    have w1 := State.window_succ (n := n + 2) h1
    rcases Nat.lt_or_ge (s.pc.toNat + 1) s.progLen.toNat with h2 | h2
    · have f2 := State.fetchByte_ok (State.advance_lt h2)
      have w2 := State.window_succ (n := n + 1) (State.advance_lt h2)
      rw [State.advance_advance] at f2 w2
      rcases Nat.lt_or_ge (s.pc.toNat + 2) s.progLen.toNat with h3 | h3
      · have f3 := State.fetchByte_ok (State.advance_lt h3)
        have w3 := State.window_succ (n := n) (State.advance_lt h3)
        rw [State.advance_advance] at f3 w3
        left
        refine ⟨h3, mk (s.prog.read s.pc.toNat) (s.prog.read (s.advance 1).pc.toNat)
          (s.prog.read (s.advance 2).pc.toNat), ?_, ?_, _, _, _, rfl⟩
        · rw [w1, w2, w3]; rfl
        · simp only [Cursor.read3, fetchCursor, f1, f2, f3, bind, Except.bind, State.advance_prog]
      · have f3 := State.fetchByte_at_end (s := s) (n := 2) (by omega)
        right
        refine ⟨by omega, ?_, ?_⟩
        · rw [w1, w2, State.window_end (State.advance_ge (by omega))]; rfl
        · simp only [Cursor.read3, fetchCursor, f1, f2, f3, bind, Except.bind]
    · have f2 := State.fetchByte_at_end (s := s) (n := 1) (by omega)
      right
      refine ⟨by omega, ?_, ?_⟩
      · rw [w1, State.window_end (State.advance_ge (by omega))]; rfl
      · simp only [Cursor.read3, fetchCursor, f1, f2, bind, Except.bind]
  · right
    have f := State.fetchByte_at_end (s := s) (n := 0) (by omega)
    refine ⟨by omega, by rw [State.window_end h1]; rfl, ?_⟩
    simp only [State.advance_zero] at f
    simp only [Cursor.read3, fetchCursor, f, bind, Except.bind]

/-- A format-I read of the machine and of the decoder, side by side: the word is all or nothing. -/
theorem fetch_readI (mk : Byte → Half → Instr) (s : State) (h0 : s.pc.toNat ≤ s.progLen.toNat) (n : Nat) :
    (s.pc.toNat + 3 ≤ s.progLen.toNat ∧ ∃ i, listCursor.readI mk (s.window (n + 3)) = .ok (i, (s.advance 3).window n) ∧
      fetchCursor.readI mk s = .ok (i, s.advance 3) ∧ ∃ d w, i = mk d w) ∨
    (s.pc.toNat + 2 = s.progLen.toNat ∧ listCursor.readI mk (s.window (n + 3)) = .error (.outOfBytes 1) ∧
      fetchCursor.readI mk s = .error (⟨.outOfBounds, (s.advance 1).pc⟩, s.advance 1)) ∨
    (s.progLen.toNat < s.pc.toNat + 2 ∧ listCursor.readI mk (s.window (n + 3)) = .error (.outOfBytes 0) ∧
      fetchCursor.readI mk s = .error (⟨.outOfBounds, s.progLen⟩, { s with pc := s.progLen })) := by
  rcases Nat.lt_or_ge s.pc.toNat s.progLen.toNat with h1 | h1
  · have f1 := State.fetchByte_ok h1
    have w1 := State.window_succ (n := n + 2) h1
    rcases Nat.lt_or_ge (s.pc.toNat + 1) s.progLen.toNat with h2 | h2
    · have w2 := State.window_succ (n := n + 1) (State.advance_lt h2)
      rw [State.advance_advance] at w2
      have p1 : (s.advance 1).pc.toNat = s.pc.toNat + 1 := State.advance_pc_toNat h2.le
      rcases Nat.lt_or_ge (s.pc.toNat + 2) s.progLen.toNat with h3 | h3
      · have w3 := State.window_succ (n := n) (State.advance_lt h3)
        rw [State.advance_advance] at w3
        have f2 := State.fetchWord_ok (s := s.advance 1) (by rw [p1]; exact h3)
        rw [State.advance_advance, p1] at f2
        left
        refine ⟨h3, mk (s.prog.read s.pc.toNat) (s.prog.read (s.pc.toNat + 1) ++ s.prog.read (s.pc.toNat + 2)),
          ?_, ?_, _, _, rfl⟩
        · rw [w1, w2, w3, p1, State.advance_pc_toNat h3.le]; rfl
        · simp only [Cursor.readI, fetchCursor, f1, f2, bind, Except.bind, State.advance_prog]
      · have f2 := State.fetchWord_error (s := s.advance 1) (by rw [p1, State.advance_progLen]; omega)
        right; left
        refine ⟨by omega, ?_, ?_⟩
        · rw [w1, w2, State.window_end (State.advance_ge (by omega))]; rfl
        · simp only [Cursor.readI, fetchCursor, f1, f2, bind, Except.bind]
    · have f2 := State.fetchWord_error (s := s.advance 1)
        (by rw [State.advance_pc_toNat (by omega), State.advance_progLen]; omega)
      rw [State.advance_to_end (by omega)] at f2
      right; right
      refine ⟨by omega, ?_, ?_⟩
      · rw [w1, State.window_end (State.advance_ge (by omega))]; rfl
      · rw [State.advance_to_end (by omega)] at f1
        simp only [Cursor.readI, fetchCursor, f1, f2, bind, Except.bind]
  · right; right
    have f := State.fetchByte_at_end (s := s) (n := 0) (by omega)
    refine ⟨by omega, by rw [State.window_end h1]; rfl, ?_⟩
    simp only [State.advance_zero] at f
    simp only [Cursor.readI, fetchCursor, f, bind, Except.bind]

/-- Fetching is the opcode byte, then the operands. -/
theorem State.fetchInstr_eq {s : State} (h : s.pc.toNat < s.progLen.toNat) :
    s.fetchInstr = match Opcode.ofByte (s.prog.read s.pc.toNat) with
      | some op => fetchCursor.readOperands op (s.advance 1)
      | none => .error (⟨.unknownOpcode, (s.prog.read s.pc.toNat).setWidth 64⟩, s.advance 1) := by
  unfold State.fetchInstr Cursor.readInstr Cursor.readOpcode
  simp only [fetchCursor, State.fetchByte_ok h, bind, Except.bind]
  cases Opcode.ofByte (s.prog.read s.pc.toNat) <;> rfl

end Sys2Proof.Machine
end

