-- ==== Sys2Proof/Laws/PerInstr.lean ====
section
/-! SUPPORT. Per-instruction facts about the encoding: the first byte is the opcode's, the length is the format's (R61,
R64), and the registers it names stand among its operand bytes (R23). -/

/-- What is said of every instruction: its encoding begins with its opcode's byte, is as long as its format says, and
names as registers only bytes of that encoding (R23, R60, R61, R64). -/
def Sys2Proof.Laws.EncodingShape.Statement (i : Sys2Proof.Instr) : Prop :=
  (Sys2Proof.encode i).head? = some i.opcode.value ∧
  (Sys2Proof.encode i).length = i.opcode.format.length ∧
  (∀ r ∈ i.names, r ∈ i.operandBytes)

theorem Sys2Proof.Laws.EncodingShape.nop :
    Sys2Proof.Laws.EncodingShape.Statement .nop :=
  ⟨rfl, rfl, by simp [Sys2Proof.Instr.names, Sys2Proof.Instr.reads, Sys2Proof.Instr.writes, Sys2Proof.Instr.operandBytes]⟩

theorem Sys2Proof.Laws.EncodingShape.load (dst : Sys2Proof.RegIdx) (imm : Sys2Proof.Half) :
    Sys2Proof.Laws.EncodingShape.Statement (.load dst imm) :=
  ⟨rfl, rfl, by simp [Sys2Proof.Instr.names, Sys2Proof.Instr.reads, Sys2Proof.Instr.writes, Sys2Proof.Instr.operandBytes]⟩

theorem Sys2Proof.Laws.EncodingShape.add (a b d : Sys2Proof.RegIdx) :
    Sys2Proof.Laws.EncodingShape.Statement (.add a b d) :=
  ⟨rfl, rfl, by simp [Sys2Proof.Instr.names, Sys2Proof.Instr.reads, Sys2Proof.Instr.writes, Sys2Proof.Instr.operandBytes]⟩

theorem Sys2Proof.Laws.EncodingShape.sub (a b d : Sys2Proof.RegIdx) :
    Sys2Proof.Laws.EncodingShape.Statement (.sub a b d) :=
  ⟨rfl, rfl, by simp [Sys2Proof.Instr.names, Sys2Proof.Instr.reads, Sys2Proof.Instr.writes, Sys2Proof.Instr.operandBytes]⟩

theorem Sys2Proof.Laws.EncodingShape.mul (a b d : Sys2Proof.RegIdx) :
    Sys2Proof.Laws.EncodingShape.Statement (.mul a b d) :=
  ⟨rfl, rfl, by simp [Sys2Proof.Instr.names, Sys2Proof.Instr.reads, Sys2Proof.Instr.writes, Sys2Proof.Instr.operandBytes]⟩

theorem Sys2Proof.Laws.EncodingShape.truediv (a b d : Sys2Proof.RegIdx) :
    Sys2Proof.Laws.EncodingShape.Statement (.truediv a b d) :=
  ⟨rfl, rfl, by simp [Sys2Proof.Instr.names, Sys2Proof.Instr.reads, Sys2Proof.Instr.writes, Sys2Proof.Instr.operandBytes]⟩

theorem Sys2Proof.Laws.EncodingShape.eq (a b d : Sys2Proof.RegIdx) :
    Sys2Proof.Laws.EncodingShape.Statement (.eq a b d) :=
  ⟨rfl, rfl, by simp [Sys2Proof.Instr.names, Sys2Proof.Instr.reads, Sys2Proof.Instr.writes, Sys2Proof.Instr.operandBytes]⟩

theorem Sys2Proof.Laws.EncodingShape.ne (a b d : Sys2Proof.RegIdx) :
    Sys2Proof.Laws.EncodingShape.Statement (.ne a b d) :=
  ⟨rfl, rfl, by simp [Sys2Proof.Instr.names, Sys2Proof.Instr.reads, Sys2Proof.Instr.writes, Sys2Proof.Instr.operandBytes]⟩

theorem Sys2Proof.Laws.EncodingShape.gt (a b d : Sys2Proof.RegIdx) :
    Sys2Proof.Laws.EncodingShape.Statement (.gt a b d) :=
  ⟨rfl, rfl, by simp [Sys2Proof.Instr.names, Sys2Proof.Instr.reads, Sys2Proof.Instr.writes, Sys2Proof.Instr.operandBytes]⟩

theorem Sys2Proof.Laws.EncodingShape.lt (a b d : Sys2Proof.RegIdx) :
    Sys2Proof.Laws.EncodingShape.Statement (.lt a b d) :=
  ⟨rfl, rfl, by simp [Sys2Proof.Instr.names, Sys2Proof.Instr.reads, Sys2Proof.Instr.writes, Sys2Proof.Instr.operandBytes]⟩

theorem Sys2Proof.Laws.EncodingShape.ge (a b d : Sys2Proof.RegIdx) :
    Sys2Proof.Laws.EncodingShape.Statement (.ge a b d) :=
  ⟨rfl, rfl, by simp [Sys2Proof.Instr.names, Sys2Proof.Instr.reads, Sys2Proof.Instr.writes, Sys2Proof.Instr.operandBytes]⟩

theorem Sys2Proof.Laws.EncodingShape.le (a b d : Sys2Proof.RegIdx) :
    Sys2Proof.Laws.EncodingShape.Statement (.le a b d) :=
  ⟨rfl, rfl, by simp [Sys2Proof.Instr.names, Sys2Proof.Instr.reads, Sys2Proof.Instr.writes, Sys2Proof.Instr.operandBytes]⟩

theorem Sys2Proof.Laws.EncodingShape.jmp (r : Sys2Proof.RegIdx) :
    Sys2Proof.Laws.EncodingShape.Statement (.jmp r) :=
  ⟨rfl, rfl, by simp [Sys2Proof.Instr.names, Sys2Proof.Instr.reads, Sys2Proof.Instr.writes, Sys2Proof.Instr.operandBytes]⟩

theorem Sys2Proof.Laws.EncodingShape.jmpf (r : Sys2Proof.RegIdx) :
    Sys2Proof.Laws.EncodingShape.Statement (.jmpf r) :=
  ⟨rfl, rfl, by simp [Sys2Proof.Instr.names, Sys2Proof.Instr.reads, Sys2Proof.Instr.writes, Sys2Proof.Instr.operandBytes]⟩

theorem Sys2Proof.Laws.EncodingShape.jmpb (r : Sys2Proof.RegIdx) :
    Sys2Proof.Laws.EncodingShape.Statement (.jmpb r) :=
  ⟨rfl, rfl, by simp [Sys2Proof.Instr.names, Sys2Proof.Instr.reads, Sys2Proof.Instr.writes, Sys2Proof.Instr.operandBytes]⟩

theorem Sys2Proof.Laws.EncodingShape.jeq (r : Sys2Proof.RegIdx) :
    Sys2Proof.Laws.EncodingShape.Statement (.jeq r) :=
  ⟨rfl, rfl, by simp [Sys2Proof.Instr.names, Sys2Proof.Instr.reads, Sys2Proof.Instr.writes, Sys2Proof.Instr.operandBytes]⟩

theorem Sys2Proof.Laws.EncodingShape.jne (r : Sys2Proof.RegIdx) :
    Sys2Proof.Laws.EncodingShape.Statement (.jne r) :=
  ⟨rfl, rfl, by simp [Sys2Proof.Instr.names, Sys2Proof.Instr.reads, Sys2Proof.Instr.writes, Sys2Proof.Instr.operandBytes]⟩

theorem Sys2Proof.Laws.EncodingShape.hlt :
    Sys2Proof.Laws.EncodingShape.Statement .hlt :=
  ⟨rfl, rfl, by simp [Sys2Proof.Instr.names, Sys2Proof.Instr.reads, Sys2Proof.Instr.writes, Sys2Proof.Instr.operandBytes]⟩
end

