-- ==== Sys2Proof/Laws/Rounding.lean ====
section
/-! SUPPORT. What the proofs about rounding need, as real numbers: the scale 2^-1074, the nearest magnitude, the overflow
threshold, and the range of a finite number. -/

namespace Sys2Proof

/-- The scale of a magnitude is positive. -/
theorem units_pos : (0 : ℚ) < 2 ^ 1074 := by positivity

/-- The absolute value is the magnitude, counted in 2^-1074. -/
theorem F64.abs_real (v : F64) : |v.real| = v.magnitude / 2 ^ 1074 := by
  rw [F64.real_eq, abs_div, abs_of_pos units_pos]
  split <;> simp

/-- Among the magnitudes of binary64 numbers the rounded one is nearest to `n / d`, and even where another is as near. -/
theorem mag_nearest (n : Nat) {d : Nat} (hd : 0 < d) (z : F64) :
    |(roundHalfEven n (d * 2 ^ lastPlace n d) * 2 ^ lastPlace n d : ℚ) * d - n| ≤ |(z.magnitude : ℚ) * d - n| ∧
    (|(z.magnitude : ℚ) * d - n| = |(roundHalfEven n (d * 2 ^ lastPlace n d) * 2 ^ lastPlace n d : ℚ) * d - n| →
      (z.magnitude : ℚ) ≠ roundHalfEven n (d * 2 ^ lastPlace n d) * 2 ^ lastPlace n d → roundHalfEven n (d * 2 ^ lastPlace n d) % 2 = 0) := by
  set k := lastPlace n d with hk
  have hD : 0 < d * 2 ^ k := by positivity
  have hnear := roundHalfEven_nearest n hD
  have heven := fun j => roundHalfEven_even (n := n) (j := j) hD
  set t := roundHalfEven n (d * 2 ^ k) with ht
  have ⟨hb1, hb2⟩ := lastPlace_bounds n hd
  rw [← hk] at hb1 hb2
  push_cast at hnear heven
  have hdq : (0 : ℚ) < d := by exact_mod_cast hd
  have e1 : ((t : ℚ) * 2 ^ k) * d = t * (d * 2 ^ k) := by ring
  rw [e1]
  by_cases hm : ∃ j : Nat, z.magnitude = j * 2 ^ k
  · obtain ⟨j, hj⟩ := hm
    have e2 : (z.magnitude : ℚ) * d = j * (d * 2 ^ k) := by rw [hj]; push_cast; ring
    rw [e2]
    refine ⟨hnear j, fun h hne => heven j h ?_⟩
    rintro rfl
    apply hne; rw [hj]; push_cast; ring
  · have hk0 : k ≠ 0 := by intro h0; apply hm; exact ⟨z.magnitude, by simp [h0]⟩
    have hlow := hb2 hk0
    have hzlt : z.magnitude < 2 ^ 52 * 2 ^ k := by
      rcases F64.magnitude_cases z with h | ⟨f, e, hf, he, h⟩
      · exact h.trans_le (Nat.le_mul_of_pos_right _ (by positivity))
      · by_contra hc
        apply hm
        have hke : k ≤ e := by
          by_contra hlt
          have : 2 ^ (e + 1) ≤ 2 ^ k := two_pow_mono (by omega)
          have h1 : (2 ^ 52 + f) * 2 ^ e < 2 ^ 52 * 2 ^ (e + 1) := by
            rw [pow_succ 2 e]
            have : 0 < 2 ^ e := by positivity
            nlinarith
          have h2 := Nat.mul_le_mul_left (2 ^ 52) this
          omega
        refine ⟨(2 ^ 52 + f) * 2 ^ (e - k), ?_⟩
        rw [h, Nat.mul_assoc, ← pow_add, Nat.sub_add_cancel hke]
    have hzq : (z.magnitude : ℚ) * d < 2 ^ 52 * (d * 2 ^ k) := by
      have : (z.magnitude : ℚ) < 2 ^ 52 * 2 ^ k := by exact_mod_cast hzlt
      nlinarith
    have hlq : (2 : ℚ) ^ 52 * (d * 2 ^ k) ≤ n := by exact_mod_cast hlow
    have h52 := hnear (2 ^ 52)
    push_cast at h52
    have hA : |(2 : ℚ) ^ 52 * (d * 2 ^ k) - n| < |(z.magnitude : ℚ) * d - n| := by
      rw [abs_of_nonpos (by linarith), abs_of_neg (by linarith)]; linarith
    exact ⟨h52.trans hA.le, fun h => absurd h (ne_of_gt (h52.trans_lt hA))⟩

/-- An exact value as the fraction the rounding is given. -/
theorem abs_eq_units (q : ℚ) : |q| = ((q.num.natAbs * 2 ^ 1074 : Nat) : ℚ) / (q.den * 2 ^ 1074) := by
  have h := Rat.num_div_den q
  conv_lhs => rw [← h]
  rw [abs_div, abs_of_nonneg (by positivity : (0:ℚ) ≤ q.den)]
  have : |(q.num : ℚ)| = (q.num.natAbs : ℚ) := by rw [Nat.cast_natAbs]; simp
  rw [this, Nat.cast_mul, Nat.cast_pow, Nat.cast_ofNat, mul_div_mul_right _ _ units_pos.ne']

/-- Below the overflow threshold, and only there, the rounded fields are those of a finite number. -/
theorem threshold_iff (q : ℚ) : |q| < overflowThreshold ↔ roundFields (q.num.natAbs * 2 ^ 1074) q.den < 2047 * 2 ^ 52 := by
  rw [roundFields_lt_iff _ q.den_pos, abs_eq_units q]
  have hd : (0 : ℚ) < q.den := by exact_mod_cast q.den_pos
  rw [div_lt_iff₀ (by positivity)]
  generalize q.num.natAbs * 2 ^ 1074 = n
  have e : overflowThreshold * (q.den * 2 ^ 1074) = ((2 : ℚ) ^ 54 - 1) * 2 ^ 2045 * q.den / 2 := by
    unfold overflowThreshold
    have e1 : (2:ℚ)^1024 = 2^54 * 2^970 := by rw [← pow_add]
    have e2 : (2:ℚ)^2045 = 2^970 * 2^1074 * 2 := by rw [← pow_add, ← pow_succ]
    rw [e1, e2]
    generalize (2:ℚ)^970 = a
    generalize (2:ℚ)^1074 = b
    ring
  rw [e]
  constructor
  · intro h
    have h' : (2 * n : ℚ) < ((2 : ℚ) ^ 54 - 1) * 2 ^ 2045 * q.den := by
      rw [mul_comm]
      exact (lt_div_iff₀ two_pos).1 h
    have e3 : ((2 : ℚ) ^ 54 - 1) = ((2 ^ 54 - 1 : Nat) : ℚ) := by norm_num
    rw [e3] at h'
    exact_mod_cast h'
  · intro h
    have e3 : ((2 : ℚ) ^ 54 - 1) = ((2 ^ 54 - 1 : Nat) : ℚ) := by norm_num
    have h' : (2 * n : ℚ) < ((2 : ℚ) ^ 54 - 1) * 2 ^ 2045 * q.den := by rw [e3]; exact_mod_cast h
    linarith

/-- The last fraction bit of a rounding is the parity of its last places. -/
theorem lastBit_rounded (neg : Bool) {n d : Nat} (hF : roundFields n d < 2047 * 2 ^ 52) :
    (F64.ofFields neg (roundFields n d)).frac.getLsbD 0 = decide (roundHalfEven n (d * 2 ^ lastPlace n d) % 2 = 1) := by
  rw [F64.lastBit_ofFields neg hF, roundFields_eq]
  congr 1; apply propext; omega

/-- The magnitude of `f64(k)`. -/
theorem F64.ofNat_magnitude {k : Nat} (hk : k ≤ 2 ^ 53) : (F64.ofNat k).magnitude = k * 2 ^ 1074 := by
  unfold F64.ofNat
  split
  next h => rw [h, Nat.zero_mul]; rfl
  next h =>
    have h1 : 2 ^ k.log2 ≤ k := Nat.log2_self_le h
    have h2 : k < 2 ^ (k.log2 + 1) := Nat.lt_log2_self
    have hL : k.log2 ≤ 53 := by
      by_contra hc
      have : 2 ^ 54 ≤ 2 ^ k.log2 := two_pow_mono (by omega)
      omega
    unfold F64.magnitude
    rw [if_neg]
    · simp only [BitVec.toNat_ofNat]
      have e1 : (1023 + k.log2) % 2 ^ 11 = 1023 + k.log2 := Nat.mod_eq_of_lt (by omega)
      rw [e1]
      rcases Nat.lt_or_ge k.log2 53 with h53 | h53
      · have e2 : 2 ^ k.log2 * 2 ^ (52 - k.log2) = 2 ^ 52 := by rw [← pow_add]; congr 1; omega
        have e3 : 2 ^ (k.log2 + 1) * 2 ^ (52 - k.log2) = 2 ^ 53 := by rw [← pow_add]; congr 1; omega
        have l1 : 2 ^ 52 ≤ k * 2 ^ (52 - k.log2) := by rw [← e2]; exact Nat.mul_le_mul_right _ h1
        have l2 : k * 2 ^ (52 - k.log2) < 2 ^ 53 := by rw [← e3]; exact Nat.mul_lt_mul_of_pos_right h2 (by positivity)
        rw [Nat.mod_eq_of_lt (by omega), Nat.add_sub_cancel' l1, Nat.mul_assoc, ← pow_add]
        congr 2; omega
      · have : k = 2 ^ 53 := by
          have h54 : k.log2 = 53 := by omega
          rw [h54] at h1; omega
        subst this
        have : (2 ^ 53).log2 = 53 := by decide
        rw [this]
        have e : 2 ^ 53 * 2 ^ (52 - 53) - 2 ^ 52 = 2 ^ 52 := by decide
        rw [e, Nat.mod_self, Nat.add_zero, ← pow_add, ← pow_add]
    · intro he
      have := congrArg BitVec.toNat he
      simp at this; omega

/-- Every finite number lies below the overflow threshold. -/
theorem F64.abs_real_lt {z : F64} (h : z.isFinite = true) : |z.real| < overflowThreshold := by
  have hm : z.magnitude ≤ (2 ^ 53 - 1) * 2 ^ 2045 := by
    rcases F64.magnitude_cases z with h' | ⟨f, e, hf, he, h'⟩
    · have h1 : z.magnitude ≤ (2 ^ 53 - 1) * 1 := by omega
      exact h1.trans (Nat.mul_le_mul_left _ Nat.one_le_two_pow)
    · rw [h']
      have he2 : e ≤ 2045 := by
        have hlt := z.exp.isLt
        have hne : z.exp ≠ 2047 := by simpa [F64.isFinite] using h
        have : z.exp.toNat ≠ 2047 := fun hh => hne (BitVec.eq_of_toNat_eq hh)
        omega
      exact Nat.mul_le_mul (by omega) (two_pow_mono he2)
  rw [F64.abs_real, div_lt_iff₀ units_pos]
  have hq : (z.magnitude : ℚ) ≤ ((2 ^ 53 - 1 : Nat) : ℚ) * 2 ^ 2045 := by exact_mod_cast hm
  refine hq.trans_lt ?_
  unfold overflowThreshold
  have e1 : (2:ℚ)^1024 = 2^54 * 2^970 := by rw [← pow_add]
  have e2 : (2:ℚ)^2045 = 2^970 * 2^1074 * 2 := by rw [← pow_add, ← pow_succ]
  rw [e1, e2]
  have ha : (0:ℚ) < 2^970 := by positivity
  have hb := units_pos
  generalize (2:ℚ)^970 = a at *
  generalize (2:ℚ)^1074 = b at *
  have hab := mul_pos ha hb
  have e3 : ((2 ^ 53 - 1 : Nat) : ℚ) = 2 ^ 53 - 1 := by norm_num
  rw [e3]
  have e4 : (2 ^ 54 * a - a) * b - (2 ^ 53 - 1) * (a * b * 2) = a * b := by ring
  clear hq hm e3
  exact sub_pos.1 (e4.symm ▸ hab)

theorem neg_div_nonpos (U : ℚ) (h : 0 < U) (m : ℕ) : -(m : ℚ) / U ≤ 0 := by
  rw [neg_div]; exact neg_nonpos.2 (div_nonneg (Nat.cast_nonneg _) h.le)
theorem F64.real_nonpos {z : F64} (hn : z.neg = true) : z.real ≤ 0 := by
  rw [F64.real_eq, if_pos hn]; exact neg_div_nonpos _ units_pos _
theorem F64.real_nonneg {z : F64} (hn : z.neg = false) : 0 ≤ z.real := by
  rw [F64.real_eq, hn]; have := units_pos; exact div_nonneg (by simp) this.le

end Sys2Proof
end

