-- ==== Sys2Proof/Laws/Step.lean ====
section
/-! SUPPORT. What one step can do, said once, in terms of the fetch unit and `exec`. -/

namespace Sys2Proof.Machine

/-- `exec` always answers a next state. -/
theorem exec_answers (i : Instr) (s : State) : ∃ t, exec i s = .next t := by
  rcases exec_cases i s with ⟨t, -, h⟩ | ⟨r, -, h⟩ <;> exact ⟨_, h⟩

/-- Everything a step can do: nothing in a terminal status, the exhaustion at or beyond the end, the instruction that was
fetched, or the fault of the fetch. -/
theorem step_inversion (s : State) :
    (s.status ≠ .running ∧ step s = .next s) ∨
    (s.status = .running ∧ s.progLen.toNat ≤ s.pc.toNat ∧ step s = .next s.exhaust) ∨
    (s.status = .running ∧ s.pc.toNat < s.progLen.toNat ∧ ∃ i u, s.fetchInstr = .ok (i, u) ∧ step s = exec i s) ∨
    (s.status = .running ∧ s.pc.toNat < s.progLen.toNat ∧
      ∃ r u, s.fetchInstr = .error (r, u) ∧ step s = .next (u.takeFault s.pc r)) := by
  unfold step cycle
  by_cases hr : s.status = .running
  · rw [if_pos hr]
    rcases Nat.lt_or_ge s.pc.toNat s.progLen.toNat with hlt | hge
    · rw [if_neg (by simpa [BitVec.le_def] using hlt)]
      rcases s.fetchInstr with ⟨r, u⟩ | ⟨i, u⟩
      · exact .inr (.inr (.inr ⟨hr, hlt, r, u, rfl, rfl⟩))
      · exact .inr (.inr (.inl ⟨hr, hlt, i, u, rfl, rfl⟩))
    · rw [if_pos (by simpa [BitVec.le_def] using hge)]
      exact .inr (.inl ⟨hr, hge, rfl⟩)
  · rw [if_neg hr]
    exact .inl ⟨hr, rfl⟩

/-- The bytes of an instruction, and its length, from its opcode (R64). -/
theorem encode_length (i : Instr) : (encode i).length = i.length := by cases i <;> rfl

theorem length_le_four (i : Instr) : i.length ≤ 4 := by
  cases i <;> simp [Instr.length, Instr.opcode, Opcode.format, Format.length]

theorem length_pos (i : Instr) : 1 ≤ i.length := by
  cases i <;> simp [Instr.length, Instr.opcode, Opcode.format, Format.length]

/-- The bytes the machine is about to fetch stand at the front of the decoder's window. -/
theorem window_of_fetches {s : State} {bs : List Byte} (h : s.Fetches bs) {n : Nat} (hn : bs.length ≤ n) :
    ∃ rest, s.window n = bs ++ rest := by
  obtain ⟨-, hb, hk⟩ := h
  refine ⟨(s.window n).drop bs.length, ?_⟩
  conv_lhs => rw [← List.take_append_drop bs.length (s.window n)]
  congr 1
  apply List.ext_getElem?
  intro k
  rcases Nat.lt_or_ge k bs.length with hlt | hge
  · have hb' := List.getElem?_eq_getElem hlt
    rw [List.getElem?_take_of_lt hlt, hb', ← hk k _ hb']
    unfold State.window
    rw [List.getElem?_map, List.getElem?_range (by omega)]
    rfl
  · rw [List.getElem?_eq_none (by simp; omega), List.getElem?_eq_none hge]

end Sys2Proof.Machine
end

