-- ==== Sys2Proof/Tests/Slice0.lean ====
section
/-! SUPPORT. The model's own tests. Expected results come from spec 95_test_vectors.md (its ids stand in the comments) or
from the encodings of 30_encoding.md; binary64 patterns are the IEEE 754 patterns of the values written there. -/

namespace Sys2Proof.Tests

open Sys2Proof Sys2Proof.Machine

-- One test after another: waiting for the kernel in many at once takes a thread, and its stack, for each.
set_option Elab.async false

/-- An instance over a program, with `n` registers, some of them seeded by the host. -/
def boot (prog : List Byte) (seeds : List (RegIdx × F64) := []) (n : Nat := 32) : State :=
  seeds.foldl (fun s r => s.setReg r.1 r.2) (State.initial (Memory.ofBytes prog) (BitVec.ofNat 64 prog.length) n)

/-- The state after one step. -/
def after (s : State) : State :=
  match step s with
  | .next t => t
  | .fault _ => s
  | .refused _ => s

/-- The state after one instruction, run by `exec`. -/
def ran (i : Instr) (s : State) : State :=
  match exec i s with
  | .next t => t
  | .fault _ => s
  | .refused _ => s

theorem exec_ran (i : Instr) (s : State) : exec i s = .next (ran i s) := by
  obtain ⟨t, h⟩ := exec_answers i s
  unfold ran
  rw [h]

theorem step_after (s : State) : step s = .next (after s) := by
  unfold after
  rcases step_inversion s with ⟨-, h⟩ | ⟨-, -, h⟩ | ⟨-, -, i, u, -, h⟩ | ⟨-, -, r, u, -, h⟩
  · rw [h]
  · rw [h]
  · rw [h, exec_ran]
  · rw [h]

/-- A binary64 number by its pattern. -/
abbrev num (b : Word) : F64 := F64.ofBits b

/-! ### Decoding: the words of 30_encoding.md R61 and R63, written out -/

theorem test_decode_format_N :
    decode [0b00000000] = .ok (.nop, []) ∧ decode [0b00010001] = .ok (.hlt, []) := by decide +kernel

theorem test_decode_format_I :
    decode [0b00000001, 0b00000101, 0b00000011, 0b11101000] = .ok (.load 5 1000, []) := by decide +kernel

theorem test_decode_format_R :
    decode [0b00000010, 0b00000000, 0b00000001, 0b00000010] = .ok (.add 0 1 2, []) ∧
    decode [0b00000011, 0b00000010, 0b00000001, 0b00000011] = .ok (.sub 2 1 3, []) ∧
    decode [0b00000100, 0b00000001, 0b00000010, 0b00000100] = .ok (.mul 1 2 4, []) ∧
    decode [0b00000101, 0b00000010, 0b00000011, 0b00000101] = .ok (.truediv 2 3 5, []) := by decide +kernel

theorem test_decode_format_C :
    decode [0b00000110, 0b00000000, 0b00000001, 0b10101011] = .ok (.eq 0 1 0xAB, []) ∧
    decode [0b00000111, 0b00000000, 0b00000001, 0b00000000] = .ok (.ne 0 1 0, []) ∧
    decode [0b00001000, 0b00000000, 0b00000001, 0b00000000] = .ok (.gt 0 1 0, []) ∧
    decode [0b00001001, 0b00000000, 0b00000001, 0b00000000] = .ok (.lt 0 1 0, []) ∧
    decode [0b00001010, 0b00000000, 0b00000001, 0b00000000] = .ok (.ge 0 1 0, []) ∧
    decode [0b00001011, 0b00000001, 0b00000010, 0b11111111] = .ok (.le 1 2 0xFF, []) := by decide +kernel

theorem test_decode_format_J :
    decode [0b00001100, 0b00000000] = .ok (.jmp 0, []) ∧ decode [0b00001101, 0b00000011] = .ok (.jmpf 3, []) ∧
    decode [0b00001110, 0b00000001] = .ok (.jmpb 1, []) ∧ decode [0b00001111, 0b00000100] = .ok (.jeq 4, []) ∧
    decode [0b00010000, 0b11111111] = .ok (.jne 255, []) := by decide +kernel

/-- 30_encoding.md R65, 20_memory.md R45: unknown opcodes and truncated instructions are refused by name. -/
theorem test_decode_refuses :
    decode [0x12, 0, 0, 0] = .error (.unknownOpcode 0x12) ∧ decode [0xFF] = .error (.unknownOpcode 0xFF) ∧
    decode [0x01, 0x00, 0x00] = .error (.outOfBytes 1) ∧ decode [0x02, 0x09, 0x01] = .error (.outOfBytes 0) ∧
    decode [] = .error (.outOfBytes 0) := by decide +kernel

/-- The words as the opcode table numbers them (R61), each by its match value there and operands of 0. -/
theorem test_decode_table_words :
    decodeTableWord 32 0x0B000000 = some (.le 0 0 0) ∧ decodeTableWord 16 0x1000 = some (.jne 0) ∧
    decodeTableWord 8 0x11 = some .hlt ∧ decodeTableWord 8 0x12 = none := by decide +kernel

/-! ### WellFormed: each check refuses an ill-formed term -/

theorem test_illformed_register : (Instr.add 0 1 32).wellFormed 32 = false := by decide
theorem test_illformed_read_register : (Instr.jne 4).wellFormed 4 = false := by decide
theorem test_wellformed_padding : (Instr.eq 0 1 0xFF).wellFormed 2 = true := by decide
theorem test_illegal_register_count : legalRegCount 257 = false ∧ legalRegCount 256 = true := by decide
theorem test_illegal_program_length : legalProgLen (2 ^ 64) = false ∧ legalProgLen (2 ^ 64 - 1) = true := by decide +kernel

/-! ### One step of each instruction -/

/-- V-S1. -/
theorem test_nop :
    let t := after (boot [0x00])
    t.pc = 1 ∧ t.status = .running := by decide +kernel

/-- V-S2. -/
theorem test_hlt :
    let t := after (boot [0x11, 0x01, 0x02])
    t.status = .halted ∧ t.pc = 1 := by decide +kernel

/-- V-S3. -/
theorem test_hlt_is_sticky :
    let t := after (after (boot [0x11, 0x00]))
    t.status = .halted ∧ t.pc = 1 := by decide +kernel

/-- W11. -/
theorem test_load :
    let t := after (boot [0x01, 0x05, 0x03, 0xE8])
    t.regs[5]? = some (num 0x408F400000000000) ∧ t.pc = 4 := by decide +kernel

/-- V-L1. -/
theorem test_load_is_unsigned :
    let t := after (boot [0x01, 0x00, 0xFF, 0xFF])
    t.regs[0]? = some (num 0x40EFFFE000000000) := by decide +kernel

/-- V-A4. -/
theorem test_add_ties_to_even :
    let t := after (boot [0x02, 0, 1, 2] [(0, num 0x4340000000000000), (1, num 0x3FF0000000000000)])
    t.regs[2]? = some (num 0x4340000000000000) := by decide +kernel

/-- V-A5. -/
theorem test_add_overflows :
    let t := after (boot [0x02, 0, 1, 2] [(0, num 0x7FE0000000000000), (1, num 0x7FE0000000000000)])
    t.status = .fault .arithmeticOverflow ∧ t.faultDetail = 2 ∧ t.regs[2]? = some F64.posZero ∧ t.pc = 4 := by decide +kernel

/-- V-A6. -/
theorem test_sub :
    let t := after (boot [0x03, 0, 1, 2] [(0, num 0x407F400000000000), (1, num 0x408F400000000000)])
    t.regs[2]? = some (num 0xC07F400000000000) := by decide +kernel

/-- V-A8. -/
theorem test_sub_negative_zero :
    let t := after (boot [0x03, 0, 1, 2] [(0, F64.negZero)])
    t.regs[2]? = some F64.negZero := by decide +kernel

/-- V-A9. -/
theorem test_mul_zero_sign :
    let t := after (boot [0x04, 0, 1, 2] [(1, num 0xC014000000000000)])
    t.regs[2]? = some F64.negZero := by decide +kernel

/-- V-A12. -/
theorem test_mul_underflows :
    let t := after (boot [0x04, 0, 1, 2] [(0, num 0x1A70000000000000), (1, num 0x1A70000000000000)])
    t.regs[2]? = some F64.posZero ∧ t.status = .running := by decide +kernel

/-- V-A14. -/
theorem test_truediv :
    let t := after (boot [0x05, 0, 1, 2] [(0, num 0x3FF0000000000000), (1, num 0x4008000000000000)])
    t.regs[2]? = some (num 0x3FD5555555555555) := by decide +kernel

/-- V-A19. -/
theorem test_truediv_by_zero_before_destination :
    let t := after (boot [0x05, 0, 1, 9] [(0, num 0x3FF0000000000000)] 4)
    t.status = .fault .divisionByZero ∧ t.faultDetail = 1 := by decide +kernel

/-- V-C1. -/
theorem test_eq_zeros_any_padding :
    let t := after (boot [0x06, 0, 1, 0xAB] [(1, F64.negZero)])
    t.flag = true ∧ t.pc = 4 := by decide +kernel

/-- V-C3. -/
theorem test_ne :
    let t := after (boot [0x07, 0, 1, 0] [(0, num 0x4014000000000000), (1, num 0x4018000000000000)])
    t.flag = true := by decide +kernel

/-- V-C4. -/
theorem test_gt :
    let t := after (boot [0x08, 0, 1, 0] [(0, num 0xC07F400000000000)])
    t.flag = false ∧ t.pc = 4 := by decide +kernel

/-- V-C9. -/
theorem test_gt_missing_register :
    let t := after { boot [0x08, 0, 5, 0] [] 4 with flag := true }
    t.status = .fault .registerNotFound ∧ t.faultDetail = 5 ∧ t.flag = true := by decide +kernel

/-- V-C5. -/
theorem test_lt :
    let t := after (boot [0x09, 0, 1, 0] [(0, num 0x3FF8000000000000), (1, num 0x4000000000000000)])
    t.flag = true := by decide +kernel

/-- V-C6. -/
theorem test_ge :
    let t := after (boot [0x0A, 0, 1, 0] [(0, num 0x4014000000000000), (1, num 0x4014000000000000)])
    t.flag = true := by decide +kernel

/-- V-C7. -/
theorem test_le_overwrites_flag :
    let t := after { boot [0x0B, 0, 1, 0] [(0, num 0x401C000000000000), (1, num 0x4014000000000000)] with flag := true }
    t.flag = false ∧ t.pc = 4 := by decide +kernel

/-- V-J1. -/
theorem test_jmp_fraction :
    let t := after (boot [0x0C, 0] [(0, num 0x4004000000000000)])
    t.status = .fault .badJumpTarget ∧ t.faultDetail = 0 ∧ t.pc = 2 := by decide +kernel

/-- V-J5. -/
theorem test_jmp_huge :
    let t := after (boot [0x0C, 0] [(0, num 0x43E0000000000000)])
    t.pc = 9223372036854775808 ∧ t.status = .running := by decide +kernel

/-- W7. -/
theorem test_jmpf :
    let t := after (boot [0x0D, 0, 0x11] [(0, num 0x4000000000000000)])
    t.pc = 4 ∧ t.status = .running := by decide +kernel

/-- V-J7. -/
theorem test_jmpf_backward :
    let t := after (boot [0x0D, 0] [(0, num 0xC000000000000000)])
    t.pc = 0 := by decide +kernel

/-- W8, its second step. -/
theorem test_jmpb :
    let t := after (after (boot [0x01, 0, 0, 0x0A, 0x0E, 0x01] [(1, num 0x4018000000000000)]))
    t.pc = 0 ∧ t.status = .running := by decide +kernel

/-- V-J9. -/
theorem test_jmpb_below_zero :
    let t := after (boot [0x0E, 0] [(0, num 0x4008000000000000)])
    t.status = .fault .badJumpTarget ∧ t.pc = 2 := by decide +kernel

/-- V-J13. -/
theorem test_jeq_taken :
    let t := after { boot [0x0F, 3] [(3, num 0x4034000000000000)] with flag := true }
    t.pc = 20 := by decide +kernel

/-- V-J11. -/
theorem test_jeq_untaken_is_checked :
    let t := after (boot [0x0F, 9] [] 4)
    t.status = .fault .registerNotFound ∧ t.faultDetail = 9 := by decide +kernel

/-- V-J14. -/
theorem test_jne_taken :
    let t := after (boot [0x10, 3])
    t.pc = 0 ∧ t.status = .running := by decide +kernel

/-- V-J15. -/
theorem test_jne_untaken :
    let t := after { boot [0x10, 3] [(3, num 0xC01C000000000000)] with flag := true }
    t.pc = 2 ∧ t.status = .running := by decide +kernel

/-- V-S4. -/
theorem test_unknown_opcode :
    let t := after (boot [0x12, 0, 0, 0])
    t.status = .fault .unknownOpcode ∧ t.faultDetail = 0x12 ∧ t.faultPc = 0 ∧ t.pc = 1 := by decide +kernel

/-- V-L4. -/
theorem test_truncated_word :
    let t := after (boot [0x01, 0, 0])
    t.status = .fault .outOfBounds ∧ t.faultDetail = 2 ∧ t.pc = 2 := by decide +kernel

/-- V-A22. -/
theorem test_truncated_before_register_check :
    let t := after (boot [0x02, 9, 1] [] 4)
    t.status = .fault .outOfBounds ∧ t.faultDetail = 3 ∧ t.pc = 3 := by decide +kernel

/-- V-S6. -/
theorem test_empty_program :
    let t := after (boot [])
    t.status = .exhausted ∧ t.pc = 0 := by decide +kernel

/-- W2, R37: host accesses out of range, and of a non-finite value. -/
theorem test_host_errors :
    hostReadReg State.reset 32 = .error (.registerNotFound 32) ∧
    hostWriteReg State.reset 255 (num 0x3FF0000000000000) = .error (.registerNotFound 255) ∧
    hostWriteReg State.reset 0 (num 0x7FF0000000000000) = .error .notFinite ∧
    construct [] 257 = .error .tooManyRegisters := by decide +kernel

/-- The word placed by `withFetchWord` is the first instruction after reset. -/
theorem test_with_fetch_word :
    (after (State.reset.withFetchWord 32 0x010003E8)).regs[0]? = some (num 0x408F400000000000) ∧
    (after (State.reset.withFetchWord 8 0x11)).status = .halted := by decide +kernel

/-! ### Witnesses: concrete states and operands that meet the hypotheses of the statements, clause by clause -/

/-- The largest finite number, 2^1024 - 2^971. -/
abbrev top : F64 := num 0x7FEFFFFFFFFFFFFF

theorem test_witness_EncodeOfDecode :
    decode [0x01, 0x00, 0x03, 0xE8, 0x11] = .ok (.load 0 1000, [0x11]) := by decide +kernel

theorem test_witness_LengthFixedByOpcodeByte :
    decode (0x11 :: [0x00]) = .ok (.hlt, [0x00]) ∧ Opcode.ofByte 0x12 = none ∧
    (boot [0x12]).status = .running ∧ (boot [0x12]).pc < (boot [0x12]).progLen ∧
    Opcode.ofByte ((boot [0x12]).prog.read 0) = none ∧ step (boot [0x12]) = .next (after (boot [0x12])) :=
  ⟨by decide +kernel, by decide +kernel, by decide +kernel, by decide +kernel, by decide +kernel, step_after _⟩

/-- A memory that differs from the program at L, its first address beyond. -/
theorem test_witness_MemReadStaysInTheProgram :
    (∀ a < (boot [0x11]).progLen.toNat, ((boot [0x11]).prog.write 1 0xFF).read a = (boot [0x11]).prog.read a) ∧
    (boot [0x11]).prog.write 1 0xFF ≠ (boot [0x11]).prog ∧ step (boot [0x11]) = .next (after (boot [0x11])) :=
  ⟨by decide +kernel, by decide +kernel, step_after _⟩

/-- One byte left, none left, two left, one left for a word. -/
theorem test_witness_FetchPrimitives :
    ((boot [7, 8]).advance 1).pc < (boot [7, 8]).progLen ∧
    ((boot [7, 8]).advance 2).progLen ≤ ((boot [7, 8]).advance 2).pc ∧
    (boot [7, 8]).pc.toNat + 2 ≤ (boot [7, 8]).progLen.toNat ∧
    (boot [7, 8]).progLen.toNat < ((boot [7, 8]).advance 1).pc.toNat + 2 := by decide +kernel

/-- The three answers of the decoder at pc. -/
theorem test_witness_FetchAgreesWithDecode :
    decode (boot [0x0C, 0x01]).bytesAtPc = .ok (.jmp 1, []) ∧
    decode (boot [0x12, 0x01]).bytesAtPc = .error (.unknownOpcode 0x12) ∧
    decode (boot [0x01, 0x00, 0x00]).bytesAtPc = .error (.outOfBytes 1) ∧
    decode (boot [0x01]).bytesAtPc = .error (.outOfBytes 0) := by decide +kernel

theorem test_witness_StepRunsDecodedInstruction :
    (boot [0x01, 0x05, 0x03, 0xE8]).status = .running ∧
    decode (boot [0x01, 0x05, 0x03, 0xE8]).bytesAtPc = .ok (.load 5 1000, []) := by decide +kernel

theorem test_witness_StepRunsEncodedInstruction : (boot [0x0C, 0x01]).Fetches (encode (.jmp 1)) := by
  refine ⟨by decide +kernel, by decide +kernel, fun k b h => ?_⟩
  rcases k with _ | _ | k
  · revert h; revert b; decide +kernel
  · revert h; revert b; decide +kernel
  · cases h

theorem test_witness_LoadedWordRunsNext :
    State.reset.prog.wf ∧ State.reset.pc.toNat + 4 < 2 ^ 64 ∧ 32 ≤ 32 ∧
    decodeTableWord 32 0x02000102 = some (.add 0 1 2) := by decide +kernel

theorem test_witness_UnknownOpcodeFaults :
    (boot [0x12]).status = .running ∧ (boot [0x12]).pc < (boot [0x12]).progLen ∧
    0x12 ≤ (boot [0x12]).prog.read (boot [0x12]).pc.toNat := by decide +kernel

/-- At the end, and beyond it. -/
theorem test_witness_EndOfProgramExhausts :
    State.reset.status = .running ∧ State.reset.progLen ≤ State.reset.pc ∧
    (boot [0x00]).progLen ≤ ((boot [0x00]).setPc 9).pc ∧ ((boot [0x00]).setPc 9).status = .running := by decide +kernel

theorem test_witness_TerminalStatusIsSticky : (after (boot [0x11])).status ≠ .running := by decide +kernel

/-- A NOP as the last byte of a program. -/
theorem test_witness_SequentialPcNeverWraps :
    (boot [0x00]).Fetches (encode .nop) ∧ Instr.isJump .nop = false ∧ step (boot [0x00]) = .next (after (boot [0x00])) := by
  refine ⟨⟨by decide +kernel, by decide +kernel, fun k b h => ?_⟩, rfl, step_after _⟩
  rcases k with _ | k
  · revert h; revert b; decide +kernel
  · cases h

/-- LOAD: no operand byte, no word, half a word, the first missing register, the last register. -/
theorem test_witness_LoadEffect :
    ((boot [0x01]).prog.read 0 = Opcode.load.value ∧ (boot [0x01]).pc.toNat + 1 = (boot [0x01]).progLen.toNat) ∧
    ((boot [0x01, 7]).prog.read 0 = Opcode.load.value ∧ (boot [0x01, 7]).pc.toNat + 1 < (boot [0x01, 7]).progLen.toNat ∧
      (boot [0x01, 7]).progLen.toNat < (boot [0x01, 7]).pc.toNat + 4) ∧
    ((boot [0x01, 7, 8]).prog.read 0 = Opcode.load.value ∧
      (boot [0x01, 7, 8]).pc.toNat + 1 < (boot [0x01, 7, 8]).progLen.toNat ∧
      (boot [0x01, 7, 8]).progLen.toNat < (boot [0x01, 7, 8]).pc.toNat + 4) ∧
    (boot []).regCount ≤ (32 : RegIdx).toNat ∧ (31 : RegIdx).toNat < (boot []).regCount := by decide +kernel

theorem test_witness_LoadReadsBack :
    (0 : RegIdx) ≠ 1 ∧ (boot []).status = .running ∧
    exec (.load 0 1000) (boot []) = .next (ran (.load 0 1000) (boot [])) ∧
    (ran (.load 0 1000) (boot [])).status = .running ∧
    exec (.load 1 500) (ran (.load 0 1000) (boot [])) = .next (ran (.load 1 500) (ran (.load 0 1000) (boot []))) ∧
    (ran (.load 1 500) (ran (.load 0 1000) (boot []))).status = .running :=
  ⟨by decide, by decide +kernel, exec_ran _ _, by decide +kernel, exec_ran _ _, by decide +kernel⟩

/-- Both signs below the threshold, and the threshold itself. -/
theorem test_witness_RoundingIsCorrect :
    ((-1 : ℚ) < 0 → true = true) ∧ (0 < (1 : ℚ) → false = false) ∧ |(1 : ℚ)| < overflowThreshold ∧
    |(-1 : ℚ)| < overflowThreshold ∧ overflowThreshold ≤ |overflowThreshold| ∧ 0 < overflowThreshold := by decide +kernel

theorem test_witness_NaturalNumbersAreExact : (2 ^ 53 : Nat) ≤ 2 ^ 53 ∧ (0 : Nat) ≤ 2 ^ 53 := by decide +kernel

/-- 1500 / 1000 = 1.5 (R112 L2), and the integers at the end of the exact range. -/
theorem test_witness_ExactResultsAreKept :
    (num 0x408F400000000000).real ≠ 0 ∧ (num 0x3FF8000000000000).isFinite = true ∧
    (num 0x3FF8000000000000).real =
      ArithOp.fdiv.exact (num 0x4097700000000000).real (num 0x408F400000000000).real ∧
    |(-(2 ^ 53) : Int)| ≤ 2 ^ 53 := by decide +kernel

/-- Format R, the end of the program at each operand byte; every arithmetic opcode. -/
theorem test_witness_arithmetic_truncates :
    (boot [0x02]).EndsInside .add 4 ∧ (boot [0x03, 0]).EndsInside .sub 4 ∧ (boot [0x04, 0, 1]).EndsInside .mul 4 ∧
    (boot [0x05, 0, 1]).EndsInside .truediv 4 := by
  refine ⟨?_, ?_, ?_, ?_⟩ <;> exact ⟨by decide +kernel, by decide +kernel, by decide +kernel, by decide +kernel⟩

/-- The first missing register in each operand. -/
theorem test_witness_arithmetic_missing_registers :
    (boot [] [] 4).regCount ≤ (4 : RegIdx).toNat ∧ (3 : RegIdx).toNat < (boot [] [] 4).regCount ∧
    (boot [] [] 4).regs[(3 : RegIdx).toNat]? = some F64.posZero := by decide +kernel

/-- Operands of each operation whose exact result is at or beyond the overflow threshold, with registers that hold
them. -/
theorem test_witness_arithmetic_overflows :
    (boot [] [(0, top), (1, top)]).regs[0]? = some top ∧ (boot [] [(0, top), (1, top)]).regs[1]? = some top ∧
    overflowThreshold ≤ |top.real + top.real| ∧
    overflowThreshold ≤ |top.real - (num 0xFFEFFFFFFFFFFFFF).real| ∧
    overflowThreshold ≤ |top.real * top.real| ∧
    overflowThreshold ≤ |top.real / (num 0x3FE0000000000000).real| ∧
    (num 0x3FE0000000000000).real ≠ 0 := by decide +kernel

/-- Operands of each operation whose exact result is below it, the largest finite number among them. -/
theorem test_witness_arithmetic_completes :
    |top.real + F64.posZero.real| < overflowThreshold ∧ |top.real - F64.posZero.real| < overflowThreshold ∧
    |top.real * (num 0x3FF0000000000000).real| < overflowThreshold ∧
    |top.real / (num 0x3FF0000000000000).real| < overflowThreshold ∧ (num 0x3FF0000000000000).real ≠ 0 ∧
    (boot [] [(0, top)]).regs[0]? = some top ∧ (31 : RegIdx).toNat < (boot [] [(0, top)]).regCount := by decide +kernel

/-- Both zeros as divisors. -/
theorem test_witness_TruedivEffect :
    (boot [] [(1, F64.negZero)]).regs[0]? = some F64.posZero ∧
    (boot [] [(1, F64.negZero)]).regs[1]? = some F64.negZero ∧ F64.posZero.real = 0 ∧ F64.negZero.real = 0 := by
  decide +kernel

/-- Every comparison, the end of the program before its padding byte. -/
theorem test_witness_comparison_truncates :
    (boot [0x06, 0, 1]).EndsInside .eq 4 ∧ (boot [0x07, 0, 1]).EndsInside .ne 4 ∧ (boot [0x08, 0, 1]).EndsInside .gt 4 ∧
    (boot [0x09, 0, 1]).EndsInside .lt 4 ∧ (boot [0x0A, 0, 1]).EndsInside .ge 4 ∧ (boot [0x0B]).EndsInside .le 4 := by
  refine ⟨?_, ?_, ?_, ?_, ?_, ?_⟩ <;> exact ⟨by decide +kernel, by decide +kernel, by decide +kernel, by decide +kernel⟩

/-- Registers below N, and the first at N, for the clauses of the comparisons and of `ComparisonsOppose`. -/
theorem test_witness_ComparisonEffects :
    (0 : RegIdx).toNat < (boot [] [] 1).regCount ∧ (boot [] [] 1).regCount ≤ (1 : RegIdx).toNat ∧
    (boot [] [] 1).regs[0]? = some F64.posZero := by decide +kernel

theorem test_witness_PaddingByteMeansNothing :
    Opcode.eq.format = .C ∧ (boot [0x06, 0, 1, 0xC8]).prog.wf ∧
    (boot [0x06, 0, 1, 0xC8]).Fetches [Opcode.eq.value, 0, 1, 0xC8] := by
  refine ⟨rfl, by decide +kernel, by decide +kernel, by decide +kernel, fun k b h => ?_⟩
  rcases k with _ | _ | _ | _ | k
  · revert h; revert b; decide +kernel
  · revert h; revert b; decide +kernel
  · revert h; revert b; decide +kernel
  · revert h; revert b; decide +kernel
  · cases h

/-- Every jump, the end of the program before its register byte. -/
theorem test_witness_jump_truncates :
    (boot [0x0C]).EndsInside .jmp 2 ∧ (boot [0x0D]).EndsInside .jmpf 2 ∧ (boot [0x0E]).EndsInside .jmpb 2 ∧
    (boot [0x0F]).EndsInside .jeq 2 ∧ (boot [0x10]).EndsInside .jne 2 := by
  refine ⟨?_, ?_, ?_, ?_, ?_⟩ <;> exact ⟨by decide +kernel, by decide +kernel, by decide +kernel, by decide +kernel⟩

/-- Good targets at both ends of the range: 0, for the relative jumps too, and 2^64 - 2048, the largest binary64 number
below 2^64. -/
theorem test_witness_jump_completes :
    F64.negZero.real = ((0 : Nat) : ℚ) ∧ (num 0x43EFFFFFFFFFFFFF).real = ((2 ^ 64 - 2048 : Nat) : ℚ) ∧
    (((boot []).pc + 2).toNat : ℚ) + (num 0xC000000000000000).real = ((0 : Nat) : ℚ) ∧
    (((boot []).pc + 2).toNat : ℚ) - (num 0x4000000000000000).real = ((0 : Nat) : ℚ) ∧
    (boot [] [(0, F64.negZero)]).regs[0]? = some F64.negZero := by decide +kernel

/-- A rational that is negative, or at least 2^64, or no integer, is no natural number below 2^64. -/
theorem not_position {q : ℚ} (h : q < 0 ∨ 2 ^ 64 ≤ q ∨ q.den ≠ 1) : ∀ k : Nat, k < 2 ^ 64 → q ≠ k := by
  rintro k hk rfl
  rcases h with h | h | h
  · exact absurd h (not_lt.2 (Nat.cast_nonneg k))
  · exact absurd (by exact_mod_cast h) (not_le.2 hk)
  · exact h (Rat.den_natCast k)

/-- Bad targets at both ends of the range, and a fraction; the relative jumps below 0. -/
theorem test_witness_jump_bad_target :
    (∀ k : Nat, k < 2 ^ 64 → (num 0xBFF0000000000000).real ≠ k) ∧
    (∀ k : Nat, k < 2 ^ 64 → (num 0x43F0000000000000).real ≠ k) ∧
    (∀ k : Nat, k < 2 ^ 64 → (num 0x4004000000000000).real ≠ k) ∧
    (∀ k : Nat, k < 2 ^ 64 → (((boot []).pc + 2).toNat : ℚ) + (num 0xC008000000000000).real ≠ k) ∧
    (∀ k : Nat, k < 2 ^ 64 → (((boot []).pc + 2).toNat : ℚ) - (num 0x4008000000000000).real ≠ k) :=
  ⟨not_position (.inl (by decide +kernel)), not_position (.inr (.inl (by decide +kernel))),
    not_position (.inr (.inr (by decide +kernel))), not_position (.inl (by decide +kernel)),
    not_position (.inl (by decide +kernel))⟩

/-- The flag both ways, a register below N and the first at N. -/
theorem test_witness_ConditionalJumps :
    (boot []).flag = false ∧ ((boot []).setFlag true).flag = true ∧ (31 : RegIdx).toNat < (boot []).regCount ∧
    (boot []).regCount ≤ (32 : RegIdx).toNat ∧ (boot [] [(3, num 0x4034000000000000)]).regs[3]? = some (num 0x4034000000000000) ∧
    (num 0x4034000000000000).real = ((20 : Nat) : ℚ) := by decide +kernel

theorem test_witness_JumpToItselfHangs :
    (boot [0x0C, 0x01]).Fetches (encode (.jmp 1)) ∧ (boot [0x0C, 0x01]).regs[(1 : RegIdx).toNat]? = some F64.posZero ∧
    F64.posZero.real = ((boot [0x0C, 0x01]).pc.toNat : ℚ) :=
  ⟨test_witness_StepRunsEncodedInstruction, by decide +kernel, by decide +kernel⟩

/-- An ADD that writes register 2, whose other registers the frame is about, and a register it does not read. -/
theorem test_witness_RegistersReadAndWritten :
    exec (.add 0 1 2) (boot [] [(0, num 0x401C000000000000)]) =
      .next (ran (.add 0 1 2) (boot [] [(0, num 0x401C000000000000)])) ∧
    (ran (.add 0 1 2) (boot [] [(0, num 0x401C000000000000)])).status = .running ∧
    (∀ d ∈ (Instr.add 0 1 2).writes, d.toNat ≠ 3) ∧ (2 : RegIdx) ∉ (Instr.add 0 1 2).reads ∧
    (2 : RegIdx) ∈ (Instr.add 0 1 2).writes ∧ (boot [] [(0, num 0x401C000000000000)]).status = .running :=
  ⟨exec_ran _ _, by decide +kernel, by decide +kernel, by decide +kernel, by decide +kernel, by decide +kernel⟩

/-- A construction, an instruction that is no comparison, a step and a run that change the flag, a host write, and the
premises of the last clause. -/
theorem test_witness_FlagIsTheComparisonsOwn :
    construct [] = .ok State.reset ∧ Instr.isComparison .nop = false ∧
    exec .nop (boot []) = .next (ran .nop (boot [])) ∧
    step (boot [0x06, 0, 1, 0]) = .next (after (boot [0x06, 0, 1, 0])) ∧
    (after (boot [0x06, 0, 1, 0])).flag ≠ (boot [0x06, 0, 1, 0]).flag ∧
    runFor 1 (boot [0x06, 0, 1, 0]) = .next (after (boot [0x06, 0, 1, 0])) ∧
    hostWriteReg (boot []) 0 F64.negZero = .ok ((boot []).setReg 0 F64.negZero) ∧
    Instr.isComparison (.eq 0 1 0) = true ∧ Instr.opcode (.eq 0 1 0) ≠ .jeq ∧ Instr.opcode (.eq 0 1 0) ≠ .jne ∧
    (ran (.eq 0 1 0) (boot [])).status = .running := by
  refine ⟨rfl, rfl, exec_ran _ _, step_after _, by decide +kernel, ?_, by decide +kernel, rfl, by decide, by decide,
    by decide +kernel⟩
  unfold runFor
  rw [if_pos (by decide +kernel), step_after]
  rfl

theorem test_witness_ProgramIsNeverWritten :
    step (boot [0x01, 0x05, 0x03, 0xE8]) = .next (after (boot [0x01, 0x05, 0x03, 0xE8])) ∧
    hostWriteReg (boot [0x11]) 0 F64.negZero = .ok ((boot [0x11]).setReg 0 F64.negZero) :=
  ⟨step_after _, by decide +kernel⟩

/-- The three ends of an instruction: running on, halted, faulted. -/
theorem test_witness_StatusFrame :
    (boot []).status = .running ∧ exec .nop (boot []) = .next (ran .nop (boot [])) ∧
    (ran .nop (boot [])).status = .running ∧ (ran .hlt (boot [])).status = .halted ∧
    (ran (.truediv 0 1 2) (boot [])).status = .fault .divisionByZero :=
  ⟨by decide +kernel, exec_ran _ _, by decide +kernel, by decide +kernel, by decide +kernel⟩

/-- A step that faults with pc four bytes on, and one that does not fault. -/
theorem test_witness_FaultsArePrecise :
    (boot [0x05, 0, 1, 2]).status = .running ∧ step (boot [0x05, 0, 1, 2]) = .next (after (boot [0x05, 0, 1, 2])) ∧
    (after (boot [0x05, 0, 1, 2])).status = .fault .divisionByZero ∧
    step (boot [0x00]) = .next (after (boot [0x00])) ∧ (∀ c, (after (boot [0x00])).status ≠ .fault c) := by
  refine ⟨by decide +kernel, step_after _, by decide +kernel, step_after _, fun c => ?_⟩
  rw [show (after (boot [0x00])).status = .running by decide +kernel]
  exact Status.noConfusion

theorem test_witness_FaultRecordStaysCoherent :
    (boot [0x12]).FaultRecordCoherent ∧ step (boot [0x12]) = .next (after (boot [0x12])) ∧
    (after (boot [0x12])).status = .fault .unknownOpcode ∧
    hostWriteReg (boot [0x12]) 0 F64.negZero = .ok ((boot [0x12]).setReg 0 F64.negZero) :=
  ⟨trivial, step_after _, by decide +kernel, by decide +kernel⟩

/-- Register 255 of 256, and of 255; the last and the first missing register. -/
theorem test_witness_RegisterAccessIsChecked :
    (255 : RegIdx).toNat < (boot [] [] 256).regCount ∧ (boot [] [] 255).regCount ≤ (255 : RegIdx).toNat ∧
    F64.negZero.isFinite = true ∧ (boot [] [] 0).regCount ≤ (0 : RegIdx).toNat := by decide +kernel

theorem test_witness_RegisterWriteChangesOnlyItsSlot :
    (boot []).writeReg 31 F64.negZero = .ok ((boot []).setReg 31 F64.negZero) ∧ (30 : RegIdx) ≠ 31 := by decide +kernel

/-- An infinity and a NaN, offered to the last register, to the first missing one and to register 255. -/
theorem test_witness_HostWriteRefusesNonFinite :
    (num 0x7FF0000000000000).isFinite = false ∧ (num 0x7FF8000000000000).isFinite = false ∧
    (31 : RegIdx).toNat < (boot []).regCount ∧ (boot []).regCount ≤ (32 : RegIdx).toNat ∧
    (boot []).regCount ≤ (255 : RegIdx).toNat := by decide +kernel

/-- N at its bound and past it; a program of the largest length is a list no test can write out, so the two length
clauses have the empty program and a list given by its length. -/
theorem test_witness_ConstructionState :
    256 < 257 ∧ 256 ≤ 256 ∧ ([] : List Byte).length ≤ 2 ^ 64 - 1 ∧
    2 ^ 64 - 1 < (List.replicate (2 ^ 64) (0 : Byte)).length := by
  rw [List.length_replicate]
  decide +kernel

theorem test_witness_InvHoldsAfterConstruction : construct [0x12, 0x00] 0 = .ok (boot [0x12, 0x00] [] 0) := rfl

/-- A state that meets the invariant, with a program, a register in use and a step to take. -/
theorem boot_inv : (boot [0x12, 0x00, 0x07] [(1, top)] 256).Inv := by
  refine ⟨by decide +kernel, ?_, by decide +kernel, by decide +kernel, fun _ => by decide +kernel⟩
  have h : ((boot [0x12, 0x00, 0x07] [(1, top)] 256).regs.all F64.isFinite) = true := by decide +kernel
  exact List.all_eq_true.1 h

theorem test_witness_StepKeepsInv :
    (boot [0x12, 0x00, 0x07] [(1, top)] 256).Inv ∧
    step (boot [0x12, 0x00, 0x07] [(1, top)] 256) = .next (after (boot [0x12, 0x00, 0x07] [(1, top)] 256)) :=
  ⟨boot_inv, step_after _⟩

theorem test_witness_HostWriteKeepsInv :
    (boot [0x12, 0x00, 0x07] [(1, top)] 256).Inv ∧
    hostWriteReg (boot [0x12, 0x00, 0x07] [(1, top)] 256) 255 F64.negZero =
      .ok ((boot [0x12, 0x00, 0x07] [(1, top)] 256).setReg 255 F64.negZero) :=
  ⟨boot_inv, by decide +kernel⟩

/-- A run that ends after one step. -/
theorem test_witness_RunEndsOnce :
    runFor 1 (boot [0x11]) = .next (after (boot [0x11])) ∧ (after (boot [0x11])).status ≠ .running ∧
    RunsTo (boot [0x11]) (after (boot [0x11])) := by
  have h : runFor 1 (boot [0x11]) = .next (after (boot [0x11])) := by
    unfold runFor
    rw [if_pos (by decide +kernel), step_after]
    rfl
  exact ⟨h, by decide +kernel, 1, h, by decide +kernel⟩

theorem test_witness_RunsEndWellFormed :
    (boot [0x12, 0x00, 0x07] [(1, top)] 256).Inv ∧
    RunsTo (boot [0x12, 0x00, 0x07] [(1, top)] 256) (after (boot [0x12, 0x00, 0x07] [(1, top)] 256)) := by
  refine ⟨boot_inv, 1, ?_, by decide +kernel⟩
  unfold runFor
  rw [if_pos (by decide +kernel), step_after]
  rfl

end Sys2Proof.Tests
end

section
/-! SUPPORT. Register accesses as the statements of 10_state.md see them (R22 to R24): what a checked read or write of one
slot makes of another, and that an instruction is indifferent to the slots it does not read. Settles O42, O43, O35. -/

namespace Sys2Proof.Machine

variable {s t : State} {i j : RegIdx} {v : F64}

/-! ### Reads and writes beside a written slot -/

theorem State.readReg_setReg_same (h : i.toNat < s.regCount) : (s.setReg i v).readReg i = .ok v :=
  State.readReg_of_some (List.getElem?_set_self h)

theorem State.readReg_setReg_of_ne (s : State) (v : F64) (h : i ≠ j) : (s.setReg j v).readReg i = s.readReg i := by
  have hne : j.toNat ≠ i.toNat := fun he => h (BitVec.eq_of_toNat_eq he.symm)
  simp only [State.readReg_eq, State.setReg_regs, List.getElem?_set_ne hne]

/-- A later write of the same slot wins. -/
@[simp] theorem State.setReg_setReg_same (s : State) (j : RegIdx) (v x : F64) :
    (s.setReg j v).setReg j x = s.setReg j x := by
  simp [State.setReg]

theorem State.setReg_comm (s : State) (v x : F64) (h : i ≠ j) :
    (s.setReg j v).setReg i x = (s.setReg i x).setReg j v := by
  have hne : j.toNat ≠ i.toNat := fun he => h (BitVec.eq_of_toNat_eq he.symm)
  simp [State.setReg, List.set_comm _ _ hne]

/-- A checked write that succeeds is the write of a slot below N. -/
theorem State.writeReg_eq_ok_iff : s.writeReg i v = .ok t ↔ i.toNat < s.regCount ∧ t = s.setReg i v := by
  rcases Nat.lt_or_ge i.toNat s.regCount with h | h
  · simp [State.writeReg_of_lt v h, h, eq_comm]
  · simp [State.writeReg_of_le v h, h]

theorem State.writeReg_setReg_same (s : State) (j : RegIdx) (v x : F64) :
    (s.setReg j v).writeReg j x = s.writeReg j x := by
  simp [State.writeReg]

theorem State.writeReg_setReg_of_ne (s : State) (v x : F64) (h : i ≠ j) :
    (s.setReg j v).writeReg i x = (·.setReg j v) <$> s.writeReg i x := by
  rcases Nat.lt_or_ge i.toNat s.regCount with hlt | hge
  · rw [State.writeReg_of_lt x hlt, State.writeReg_of_lt x (by simpa using hlt), State.setReg_comm s v x h]
    rfl
  · rw [State.writeReg_of_le x hge, State.writeReg_of_le x (by simpa using hge)]
    rfl

/-! ### The host's accesses -/

theorem hostReadReg_of_ok (h : s.readReg i = .ok v) : hostReadReg s i = .ok v := by
  simp only [hostReadReg, h]

theorem hostReadReg_of_le (h : s.regCount ≤ i.toNat) : hostReadReg s i = .error (.registerNotFound i) := by
  simp only [hostReadReg, State.readReg_of_le h]

theorem hostWriteReg_of_lt (hv : v.isFinite = true) (h : i.toNat < s.regCount) :
    hostWriteReg s i v = .ok (s.setReg i v) := by
  simp only [hostWriteReg, hv, if_true, State.writeReg_of_lt v h]

theorem hostWriteReg_of_le (hv : v.isFinite = true) (h : s.regCount ≤ i.toNat) :
    hostWriteReg s i v = .error (.registerNotFound i) := by
  simp only [hostWriteReg, hv, if_true, State.writeReg_of_le v h]

/-- Settles O42: the checked accesses and the host's, on either side of N. -/
theorem registerAccessIsChecked : Obligations.RegisterAccessIsChecked := by
  intro s i v
  refine ⟨fun h => ?below, fun h => ?missing⟩
  case below =>
    obtain ⟨x, hx⟩ := State.getElem?_of_lt h
    have hread := State.readReg_of_some hx
    exact ⟨⟨x, hx, hread, hostReadReg_of_ok hread⟩, State.writeReg_of_lt v h, fun hv => hostWriteReg_of_lt hv h⟩
  case missing =>
    exact ⟨State.readReg_of_le h, State.writeReg_of_le v h, hostReadReg_of_le h, fun hv => hostWriteReg_of_le hv h⟩

/-- Settles O43: a write that succeeds is `setReg` of a slot below N. -/
theorem registerWriteChangesOnlyItsSlot : Obligations.RegisterWriteChangesOnlyItsSlot := by
  intro s t i v h
  obtain ⟨hlt, rfl⟩ := State.writeReg_eq_ok_iff.1 h
  exact ⟨State.readReg_setReg_same hlt, fun j hj => State.readReg_setReg_of_ne s v hj, rfl, State.setReg_regCount s i v⟩

/-! ### The frame of an instruction -/

/-- An effect keeps the number of slots, and every slot but the destination (R23, R24). -/
theorem Effect.regs_frame {ins : Instr} {u : State} (h : Effect ins u t) :
    t.regs.length = u.regs.length ∧ ∀ k : Nat, (∀ d ∈ ins.writes, d.toNat ≠ k) → t.regs[k]? = u.regs[k]? := by
  cases h with
  | register hd _ _ =>
    refine ⟨by simp, fun k hk => ?_⟩
    exact List.getElem?_set_ne (hk _ (by simp [hd]))
  | nothing => exact ⟨rfl, fun _ _ => rfl⟩
  | flag _ => exact ⟨rfl, fun _ _ => rfl⟩
  | jump _ => exact ⟨rfl, fun _ _ => rfl⟩
  | halt _ => exact ⟨rfl, fun _ _ => rfl⟩

theorem exec_regs_frame {ins : Instr} (h : exec ins s = .next t) :
    t.regs.length = s.regs.length ∧ ∀ k : Nat, (∀ d ∈ ins.writes, d.toNat ≠ k) → t.regs[k]? = s.regs[k]? := by
  rcases exec_cases ins s with ⟨t', heff, he⟩ | ⟨r, -, he⟩ <;> cases he.symm.trans h
  · exact heff.regs_frame
  · exact ⟨rfl, fun _ _ => rfl⟩

/-! ### Noninterference: the shared handlers and the slots they do not read -/

/-- The statements of an instruction after its operand fetches, from pc_next on (R69). -/
def instrBody : Instr → State → Except Raise State
  | .nop => fun s => .ok s
  | .load d imm => fun s => s.writeReg d (immValue imm)
  | .add a b d => arith .fadd a b d
  | .sub a b d => arith .fsub a b d
  | .mul a b d => arith .fmul a b d
  | .truediv a b d => arith .fdiv a b d
  | .eq a b _ => compareRegs .eq a b
  | .ne a b _ => compareRegs .ne a b
  | .gt a b _ => compareRegs .gt a b
  | .lt a b _ => compareRegs .lt a b
  | .ge a b _ => compareRegs .ge a b
  | .le a b _ => compareRegs .le a b
  | .jmp r => jumpAbsolute (fun _ => true) r
  | .jmpf r => jumpRelative (fun pc v => pc + v) r
  | .jmpb r => jumpRelative (fun pc v => pc - v) r
  | .jeq r => jumpAbsolute (fun f => f) r
  | .jne r => jumpAbsolute (fun f => !f) r
  | .hlt => fun s => .ok s.halt

theorem exec_eq_runBody (ins : Instr) (s : State) : exec ins s = s.runBody ins.length (instrBody ins) := by
  cases ins <;> rfl

/-- The destination's old value does not reach the arithmetic handler's answer. -/
theorem arith_setReg_dst (op : ArithOp) {a b : RegIdx} (s : State) (v : F64) (ha : a ≠ j) (hb : b ≠ j) :
    arith op a b j (s.setReg j v) = arith op a b j s := by
  simp only [arith, State.readReg_setReg_of_ne s v ha, State.readReg_setReg_of_ne s v hb, State.writeReg_setReg_same]

theorem arith_setReg_of_ne (op : ArithOp) {a b d : RegIdx} (s : State) (v : F64) (ha : a ≠ j) (hb : b ≠ j)
    (hd : d ≠ j) : arith op a b d (s.setReg j v) = (·.setReg j v) <$> arith op a b d s := by
  unfold arith
  simp only [State.readReg_setReg_of_ne s v ha, State.readReg_setReg_of_ne s v hb,
    State.writeReg_setReg_of_ne s v _ hd, map_bind]
  refine bind_congr fun _ => bind_congr fun _ => ?_
  split_ifs <;> rfl

theorem compareRegs_setReg (c : Cmp) {a b : RegIdx} (s : State) (v : F64) (ha : a ≠ j) (hb : b ≠ j) :
    compareRegs c a b (s.setReg j v) = (·.setReg j v) <$> compareRegs c a b s := by
  simp only [compareRegs, State.readReg_setReg_of_ne s v ha, State.readReg_setReg_of_ne s v hb, map_bind]
  rfl

theorem jumpTo_setReg (q : Rat) (r j : RegIdx) (s : State) (v : F64) :
    jumpTo q r (s.setReg j v) = (·.setReg j v) <$> jumpTo q r s := by
  simp only [jumpTo, map_bind]
  rfl

theorem jumpAbsolute_setReg (taken : Bool → Bool) {r : RegIdx} (s : State) (v : F64) (hr : r ≠ j) :
    jumpAbsolute taken r (s.setReg j v) = (·.setReg j v) <$> jumpAbsolute taken r s := by
  simp only [jumpAbsolute, State.readReg_setReg_of_ne s v hr, jumpTo_setReg, State.setReg_flag, map_bind, apply_ite]
  rfl

theorem jumpRelative_setReg (target : Rat → Rat → Rat) {r : RegIdx} (s : State) (v : F64) (hr : r ≠ j) :
    jumpRelative target r (s.setReg j v) = (·.setReg j v) <$> jumpRelative target r s := by
  simp only [jumpRelative, State.readReg_setReg_of_ne s v hr, jumpTo_setReg, State.setReg_pc, map_bind]

/-- An instruction that does not name a slot carries its value along. -/
theorem instrBody_setReg_of_unnamed {ins : Instr} (s : State) (v : F64) (h : j ∉ ins.names) :
    instrBody ins (s.setReg j v) = (·.setReg j v) <$> instrBody ins s := by
  have hne : ∀ r ∈ ins.names, r ≠ j := fun r hr he => h (he ▸ hr)
  cases ins <;> simp only [Instr.names, Instr.reads, Instr.writes, List.cons_append, List.nil_append, List.append_nil,
    List.forall_mem_cons] at hne
  case nop => rfl
  case hlt => rfl
  case load => exact State.writeReg_setReg_of_ne s v _ hne.1
  case add | sub | mul | truediv =>
    obtain ⟨ha, hb, hd, -⟩ := hne
    exact arith_setReg_of_ne _ s v ha hb hd
  case eq | ne | gt | lt | ge | le =>
    obtain ⟨ha, hb, -⟩ := hne
    exact compareRegs_setReg _ s v ha hb
  case jmp => exact jumpAbsolute_setReg (fun _ => true) s v hne.1
  case jeq => exact jumpAbsolute_setReg (fun f => f) s v hne.1
  case jne => exact jumpAbsolute_setReg (fun f => !f) s v hne.1
  case jmpf | jmpb => exact jumpRelative_setReg _ s v hne.1

/-- An instruction that writes a slot without reading it answers the same whatever the slot held. -/
theorem instrBody_setReg_of_written {ins : Instr} (s : State) (v : F64) (hr : j ∉ ins.reads) (hw : j ∈ ins.writes) :
    instrBody ins (s.setReg j v) = instrBody ins s := by
  have hne : ∀ r ∈ ins.reads, r ≠ j := fun r hm he => hr (he ▸ hm)
  cases ins <;> simp only [Instr.reads, Instr.writes, List.forall_mem_cons, List.not_mem_nil]
    at hne hw
  case load =>
    obtain rfl := List.mem_singleton.1 hw
    exact State.writeReg_setReg_same s _ v _
  case add | sub | mul | truediv =>
    obtain ⟨ha, hb, -⟩ := hne
    obtain rfl := List.mem_singleton.1 hw
    exact arith_setReg_dst _ s v ha hb

/-- With another value in a slot the instruction does not read, `exec` answers the same state, or that state with the
other value still in the slot; the latter for a destination only where the instruction faults. -/
theorem exec_setReg_of_unread {ins : Instr} (s : State) (v : F64) (h : j ∉ ins.reads) :
    ∃ t u, exec ins s = .next t ∧ exec ins (s.setReg j v) = .next u ∧
      (u = t ∨ (u = t.setReg j v ∧ (j ∈ ins.writes → t.status ≠ .running))) := by
  have hadv : (s.setReg j v).advance ins.length = (s.advance ins.length).setReg j v := rfl
  simp only [exec_eq_runBody]
  by_cases hw : j ∈ ins.writes
  · have hbody := instrBody_setReg_of_written (s.advance ins.length) v h hw
    rw [← hadv] at hbody
    rcases s.runBody_cases ins.length (instrBody ins) with ⟨t, hb, hrun⟩ | ⟨r, hb, hrun⟩
    · exact ⟨t, t, hrun, State.runBody_ok (hbody.trans hb), .inl rfl⟩
    · exact ⟨_, _, hrun, State.runBody_error (hbody.trans hb), .inr ⟨rfl, by simp⟩⟩
  · have hbody := instrBody_setReg_of_unnamed (s.advance ins.length) v (by simp [Instr.names, h, hw] : j ∉ ins.names)
    rw [← hadv] at hbody
    rcases s.runBody_cases ins.length (instrBody ins) with ⟨t, hb, hrun⟩ | ⟨r, hb, hrun⟩ <;> rw [hb] at hbody
    · exact ⟨t, _, hrun, State.runBody_ok hbody, .inr ⟨rfl, fun hm => absurd hm hw⟩⟩
    · exact ⟨_, _, hrun, State.runBody_error hbody, .inr ⟨rfl, fun hm => absurd hm hw⟩⟩

/-- Settles O35: the frame from `exec_cases`, noninterference from `exec_setReg_of_unread`; the padding byte is dropped
by the dispatch. -/
theorem registersReadAndWritten : Obligations.RegistersReadAndWritten := by
  refine ⟨fun _ _ _ => exec_regs_frame, fun ins s j v hj => ?noninterference,
    fun _ _ _ _ _ => ⟨rfl, rfl, rfl, rfl, rfl, rfl⟩⟩
  case noninterference =>
    obtain ⟨t, u, ht, hu, rfl | ⟨rfl, hfault⟩⟩ := exec_setReg_of_unread s v hj
    · exact ⟨u, u, ht, hu, fun _ _ => rfl, fun _ _ _ => rfl, rfl, rfl, rfl, rfl, rfl⟩
    · exact ⟨t, t.setReg j v, ht, hu, fun k hk => List.getElem?_set_ne hk.symm,
        fun hw _ hrun => absurd hrun (hfault hw), rfl, rfl, rfl, rfl, rfl⟩

end Sys2Proof.Machine
end

section
/-! SUPPORT. The program buffer as the statements of 20_memory.md see it: nothing writes it (R41), and what the fetch unit
answers is told by the decoder on the bytes below L alone (R42 to R45). Settles O37, O6. -/

namespace Sys2Proof.Machine

variable {s t : State}

/-! ### The fetch unit's answer, from the decoder's -/

/-- What the fetch unit answers at `s`, told by the decoder's answer on the bytes there (R44, R45, R65). -/
def State.fetchAnswer (s : State) : Except DecodeError (Instr × List Byte) → Except (Raise × State) (Instr × State)
  | .ok (i, _) => .ok (i, s.advance i.length)
  | .error (.unknownOpcode b) => .error (⟨.unknownOpcode, b.setWidth 64⟩, s.advance 1)
  | .error (.outOfBytes left) =>
    .error (⟨.outOfBounds, s.progLen - BitVec.ofNat 64 left⟩, s.setPc (s.progLen - BitVec.ofNat 64 left))

theorem decode_cons_of_some {b : Byte} {op : Opcode} (bs : List Byte) (h : Opcode.ofByte b = some op) :
    decode (b :: bs) = listCursor.readOperands op bs := by
  simp only [decode, Cursor.readInstr, Cursor.readOpcode, listCursor, bind, Except.bind, h]

theorem decode_cons_of_none {b : Byte} (bs : List Byte) (h : Opcode.ofByte b = none) :
    decode (b :: bs) = .error (.unknownOpcode b) := by
  simp only [decode, Cursor.readInstr, Cursor.readOpcode, listCursor, bind, Except.bind, h]

/-- A fetch that ran into the end of the program, with nothing left of it. -/
theorem State.fetchAnswer_outOfBytes_zero (s : State) :
    s.fetchAnswer (.error (.outOfBytes 0)) = .error (⟨.outOfBounds, s.progLen⟩, s.setPc s.progLen) := by
  simp [State.fetchAnswer]

/-- A word fetch that found one byte, the third of the instruction: pc stays on it (D14). -/
theorem State.fetchAnswer_outOfBytes_one (h : s.pc.toNat + 3 = s.progLen.toNat) :
    s.fetchAnswer (.error (.outOfBytes 1)) = .error (⟨.outOfBounds, (s.advance 2).pc⟩, s.advance 2) := by
  have hstop : s.progLen - 1#64 = s.pc + 2#64 := by bv_omega
  simp only [State.fetchAnswer, hstop]
  rfl

/-- The operands, past the opcode byte: the fetch unit's answer is the decoder's. -/
theorem fetch_readOperands (op : Opcode) (h : s.pc.toNat < s.progLen.toNat) :
    fetchCursor.readOperands op (s.advance 1) =
      s.fetchAnswer (listCursor.readOperands op ((s.advance 1).window 3)) := by
  have hpc : (s.advance 1).pc.toNat = s.pc.toNat + 1 := State.advance_pc_toNat h
  have hle : (s.advance 1).pc.toNat ≤ (s.advance 1).progLen.toNat := hpc.trans_le h
  have hJ : ∀ mk : Byte → Instr, (∀ r, (mk r).length = 2) →
      fetchCursor.readJ mk (s.advance 1) = s.fetchAnswer (listCursor.readJ mk ((s.advance 1).window 3)) := by
    intro mk hlen
    rcases fetch_readJ mk _ hle 2 with ⟨-, i, hl, hf, r, rfl⟩ | ⟨-, hl, hf⟩ <;> rw [hl, hf]
    · simp [State.fetchAnswer, hlen]
    · exact s.fetchAnswer_outOfBytes_zero.symm
  have h3 : ∀ mk : Byte → Byte → Byte → Instr, (∀ x y z, (mk x y z).length = 4) →
      fetchCursor.read3 mk (s.advance 1) = s.fetchAnswer (listCursor.read3 mk ((s.advance 1).window 3)) := by
    intro mk hlen
    rcases fetch_read3 mk _ hle 0 with ⟨-, i, hl, hf, x, y, z, rfl⟩ | ⟨-, hl, hf⟩ <;> rw [hl, hf]
    · simp [State.fetchAnswer, hlen]
    · exact s.fetchAnswer_outOfBytes_zero.symm
  have hI : ∀ mk : Byte → Half → Instr, (∀ d w, (mk d w).length = 4) →
      fetchCursor.readI mk (s.advance 1) = s.fetchAnswer (listCursor.readI mk ((s.advance 1).window 3)) := by
    intro mk hlen
    rcases fetch_readI mk _ hle 0 with ⟨-, i, hl, hf, d, w, rfl⟩ | ⟨hend, hl, hf⟩ | ⟨-, hl, hf⟩ <;> rw [hl, hf]
    · simp [State.fetchAnswer, hlen]
    · rw [hpc, State.advance_progLen] at hend
      rw [State.advance_advance, State.fetchAnswer_outOfBytes_one (by omega)]
    · exact s.fetchAnswer_outOfBytes_zero.symm
  cases op with
  | nop | hlt => rfl
  | load => exact hI _ fun _ _ => rfl
  | jmp | jmpf | jmpb | jeq | jne => exact hJ _ fun _ => rfl
  | add | sub | mul | truediv | eq | ne | gt | lt | ge | le => exact h3 _ fun _ _ _ => rfl

/-- The fetch unit's answer is the decoder's on the bytes at pc. -/
theorem State.fetchInstr_eq_fetchAnswer (h : s.pc.toNat < s.progLen.toNat) :
    s.fetchInstr = s.fetchAnswer (decode s.bytesAtPc) := by
  rw [State.fetchInstr_eq h, State.bytesAtPc_eq, State.window_succ h]
  cases ho : Opcode.ofByte (s.prog.read s.pc.toNat) with
  | some op =>
    rw [decode_cons_of_some _ ho]
    exact fetch_readOperands op h
  | none =>
    rw [decode_cons_of_none _ ho]
    rfl

/-- A fetch that fails has moved pc and changed nothing else. -/
theorem State.fetchInstr_error_setPc {r : Raise} {u : State} (h : s.pc.toNat < s.progLen.toNat)
    (hf : s.fetchInstr = .error (r, u)) : ∃ p, u = s.setPc p := by
  rw [State.fetchInstr_eq_fetchAnswer h] at hf
  generalize decode s.bytesAtPc = d at hf
  rcases d with (left | b) | ⟨i, rest⟩
  · cases hf; exact ⟨_, rfl⟩
  · cases hf; exact ⟨_, rfl⟩
  · cases hf

/-! ### One step, from the fetch unit's answer (R69, R70) -/

theorem step_of_terminal (h : s.status ≠ .running) : step s = .next s := if_neg h

theorem step_of_exhausted (hr : s.status = .running) (h : s.progLen.toNat ≤ s.pc.toNat) : step s = .next s.exhaust := by
  rw [step, cycle, if_pos hr, if_pos (BitVec.le_def.2 h)]

theorem step_of_fetchInstr_ok {i : Instr} {u : State} (hr : s.status = .running) (h : s.pc.toNat < s.progLen.toNat)
    (hf : s.fetchInstr = .ok (i, u)) : step s = exec i s := by
  rw [step, cycle, if_pos hr, if_neg (by simpa [BitVec.le_def] using h), hf]

theorem step_of_fetchInstr_error {r : Raise} {u : State} (hr : s.status = .running) (h : s.pc.toNat < s.progLen.toNat)
    (hf : s.fetchInstr = .error (r, u)) : step s = .next (u.takeFault s.pc r) := by
  rw [step, cycle, if_pos hr, if_neg (by simpa [BitVec.le_def] using h), hf]

/-! ### Nothing writes the program (R41) -/

/-- What construction fixes is the same in `t` as in `s`: the program, its length and N (R34). -/
structure State.SameConfig (s t : State) : Prop where
  prog     : t.prog = s.prog
  progLen  : t.progLen = s.progLen
  regCount : t.regCount = s.regCount

theorem State.SameConfig.read (h : s.SameConfig t) (a : Nat) : t.prog.read a = s.prog.read a := by rw [h.prog]

theorem Effect.sameConfig {i : Instr} (h : Effect i s t) : s.SameConfig t := by
  cases h with
  | register _ _ _ => exact ⟨rfl, rfl, State.setReg_regCount ..⟩
  | nothing => exact ⟨rfl, rfl, rfl⟩
  | flag _ => exact ⟨rfl, rfl, rfl⟩
  | jump _ => exact ⟨rfl, rfl, rfl⟩
  | halt _ => exact ⟨rfl, rfl, rfl⟩

theorem exec_sameConfig {i : Instr} (h : exec i s = .next t) : s.SameConfig t := by
  rcases exec_cases i s with ⟨u, heff, he⟩ | ⟨r, -, he⟩ <;> cases he.symm.trans h
  · obtain ⟨hprog, hlen, hcount⟩ := heff.sameConfig
    exact ⟨hprog, hlen, hcount⟩
  · exact ⟨rfl, rfl, rfl⟩

theorem step_sameConfig (h : step s = .next t) : s.SameConfig t := by
  rcases step_inversion s with ⟨-, he⟩ | ⟨-, -, he⟩ | ⟨-, -, i, u, -, he⟩ | ⟨-, hlt, r, u, hf, he⟩ <;> rw [he] at h
  · cases h; exact ⟨rfl, rfl, rfl⟩
  · cases h; exact ⟨rfl, rfl, rfl⟩
  · exact exec_sameConfig h
  · obtain ⟨p, rfl⟩ := State.fetchInstr_error_setPc hlt hf
    cases h; exact ⟨rfl, rfl, rfl⟩

/-- A host write that succeeds is the write of a finite value to a slot below N (R36, R37). -/
theorem hostWriteReg_eq_ok_iff {i : RegIdx} {v : F64} :
    hostWriteReg s i v = .ok t ↔ v.isFinite = true ∧ i.toNat < s.regCount ∧ t = s.setReg i v := by
  by_cases hv : v.isFinite = true
  · rcases Nat.lt_or_ge i.toNat s.regCount with h | h
    · simp [hostWriteReg_of_lt hv h, hv, h, eq_comm]
    · simp [hostWriteReg_of_le hv h, h]
  · simp [hostWriteReg, hv]

theorem hostWriteReg_sameConfig {i : RegIdx} {v : F64} (h : hostWriteReg s i v = .ok t) : s.SameConfig t := by
  obtain ⟨-, -, rfl⟩ := hostWriteReg_eq_ok_iff.1 h
  exact ⟨rfl, rfl, State.setReg_regCount ..⟩

/-- Settles O37: a step and a host write keep what construction fixed. -/
theorem programIsNeverWritten : Obligations.ProgramIsNeverWritten := by
  refine ⟨fun _ _ h => ?step, fun _ _ _ _ h => ?hostWrite⟩
  case step =>
    have hc := step_sameConfig h
    exact ⟨hc.read, hc.prog, hc.progLen, hc.regCount⟩
  case hostWrite =>
    have hc := hostWriteReg_sameConfig h
    exact ⟨hc.read, hc.prog, hc.progLen, hc.regCount⟩

/-! ### MemRead as a sum (R42) -/

/-- `MemRead(addr, n)` of any number of bytes is their big-endian sum. -/
theorem memRead_eq_sum (m : Memory) (addr n : Nat) :
    memRead m addr n = ∑ k ∈ Finset.range n, (m.read (addr + k)).toNat * 256 ^ (n - 1 - k) := by
  induction n with
  | zero => rfl
  | succ n ih =>
    have hshift : ∀ k ∈ Finset.range n, (m.read (addr + k)).toNat * 256 ^ (n - 1 - k) * 256 =
        (m.read (addr + k)).toNat * 256 ^ (n - k) := by
      intro k hk
      have hk' : n - k = n - 1 - k + 1 := by
        have := Finset.mem_range.1 hk
        omega
      rw [hk', pow_succ, mul_assoc]
    calc memRead m addr (n + 1) = memRead m addr n * 256 + (m.read (addr + n)).toNat := rfl
      _ = _ := by rw [ih, Finset.sum_mul, Finset.sum_congr rfl hshift, Finset.sum_range_succ]; simp

/-! ### The machine over another memory -/

/-- The same machine over the memory `m`. -/
def State.withProg (s : State) (m : Memory) : State := { s with prog := m }

/-- A fetch's answer with the memory replaced in the state it leaves. -/
def fetchedOver (m : Memory) : Except (Raise × State) (Instr × State) → Except (Raise × State) (Instr × State)
  | .ok (i, u) => .ok (i, u.withProg m)
  | .error (r, u) => .error (r, u.withProg m)

/-- Over a memory that agrees below L the same bytes stand at pc. -/
theorem State.bytesAtPc_withProg {m : Memory} (hm : ∀ a < s.progLen.toNat, m.read a = s.prog.read a) :
    (s.withProg m).bytesAtPc = s.bytesAtPc := by
  refine List.map_congr_left fun k hk => hm _ ?_
  have hlt : k < min Config.maxInstrLength (s.progLen.toNat - s.pc.toNat) := List.mem_range.1 hk
  change s.pc.toNat + k < s.progLen.toNat
  omega

theorem State.fetchInstr_withProg {m : Memory} (h : s.pc.toNat < s.progLen.toNat)
    (hm : ∀ a < s.progLen.toNat, m.read a = s.prog.read a) :
    (s.withProg m).fetchInstr = fetchedOver m s.fetchInstr := by
  have hanswer : ∀ d, (s.withProg m).fetchAnswer d = fetchedOver m (s.fetchAnswer d) := by
    rintro ((left | b) | ⟨i, rest⟩) <;> rfl
  rw [State.fetchInstr_eq_fetchAnswer h, State.fetchInstr_eq_fetchAnswer (s := s.withProg m) h,
    State.bytesAtPc_withProg hm, hanswer]

theorem State.readReg_withProg (s : State) (m : Memory) (i : RegIdx) : (s.withProg m).readReg i = s.readReg i := rfl

theorem State.writeReg_withProg (s : State) (m : Memory) (i : RegIdx) (v : F64) :
    (s.withProg m).writeReg i v = (·.withProg m) <$> s.writeReg i v := by
  rcases Nat.lt_or_ge i.toNat s.regCount with h | h
  · rw [State.writeReg_of_lt v h, State.writeReg_of_lt (s := s.withProg m) v h]
    rfl
  · rw [State.writeReg_of_le v h, State.writeReg_of_le (s := s.withProg m) v h]
    rfl

theorem arith_withProg (op : ArithOp) (a b d : RegIdx) (s : State) (m : Memory) :
    arith op a b d (s.withProg m) = (·.withProg m) <$> arith op a b d s := by
  simp only [arith, State.readReg_withProg, State.writeReg_withProg, map_bind]
  refine bind_congr fun _ => bind_congr fun _ => ?_
  split_ifs <;> rfl

theorem compareRegs_withProg (c : Cmp) (a b : RegIdx) (s : State) (m : Memory) :
    compareRegs c a b (s.withProg m) = (·.withProg m) <$> compareRegs c a b s := by
  simp only [compareRegs, State.readReg_withProg, map_bind]
  rfl

theorem jumpTo_withProg (q : Rat) (r : RegIdx) (s : State) (m : Memory) :
    jumpTo q r (s.withProg m) = (·.withProg m) <$> jumpTo q r s := by
  simp only [jumpTo, map_bind]
  rfl

theorem jumpAbsolute_withProg (taken : Bool → Bool) (r : RegIdx) (s : State) (m : Memory) :
    jumpAbsolute taken r (s.withProg m) = (·.withProg m) <$> jumpAbsolute taken r s := by
  simp only [jumpAbsolute, State.readReg_withProg, jumpTo_withProg, map_bind, apply_ite]
  rfl

theorem jumpRelative_withProg (target : Rat → Rat → Rat) (r : RegIdx) (s : State) (m : Memory) :
    jumpRelative target r (s.withProg m) = (·.withProg m) <$> jumpRelative target r s := by
  simp only [jumpRelative, State.readReg_withProg, jumpTo_withProg, map_bind]
  rfl

/-- No instruction's statements look at the memory: they carry it along. -/
theorem instrBody_withProg (ins : Instr) (s : State) (m : Memory) :
    instrBody ins (s.withProg m) = (·.withProg m) <$> instrBody ins s := by
  cases ins with
  | nop | hlt => rfl
  | load d imm => exact s.writeReg_withProg m d _
  | add | sub | mul | truediv => exact arith_withProg _ _ _ _ s m
  | eq | ne | gt | lt | ge | le => exact compareRegs_withProg _ _ _ s m
  | jmp r => exact jumpAbsolute_withProg (fun _ => true) r s m
  | jeq r => exact jumpAbsolute_withProg (fun f => f) r s m
  | jne r => exact jumpAbsolute_withProg (fun f => !f) r s m
  | jmpf | jmpb => exact jumpRelative_withProg _ _ s m

theorem exec_withProg {ins : Instr} (m : Memory) (h : exec ins s = .next t) :
    exec ins (s.withProg m) = .next (t.withProg m) := by
  have hbody := instrBody_withProg ins (s.advance ins.length) m
  rw [exec_eq_runBody] at h ⊢
  rcases s.runBody_cases ins.length (instrBody ins) with ⟨u, hb, hrun⟩ | ⟨r, hb, hrun⟩ <;>
    cases hrun.symm.trans h <;> rw [hb] at hbody
  · exact State.runBody_ok hbody
  · exact State.runBody_error hbody

/-- A step over a memory that agrees below L is the same step with that memory. -/
theorem step_withProg {m : Memory} (hm : ∀ a < s.progLen.toNat, m.read a = s.prog.read a) (h : step s = .next t) :
    step (s.withProg m) = .next (t.withProg m) := by
  rcases step_inversion s with ⟨hr, he⟩ | ⟨hr, hge, he⟩ | ⟨hr, hlt, i, u, hf, he⟩ | ⟨hr, hlt, r, u, hf, he⟩ <;>
    rw [he] at h
  · cases h
    exact step_of_terminal hr
  · cases h
    exact step_of_exhausted hr hge
  · have hfetch := State.fetchInstr_withProg hlt hm
    rw [hf] at hfetch
    exact (step_of_fetchInstr_ok (s := s.withProg m) hr hlt hfetch).trans (exec_withProg m h)
  · cases h
    have hfetch := State.fetchInstr_withProg hlt hm
    rw [hf] at hfetch
    exact step_of_fetchInstr_error (s := s.withProg m) hr hlt hfetch

/-- Settles O6: MemRead by `memRead_eq_sum`, the step by `step_withProg`. -/
theorem memReadStaysInTheProgram : Obligations.MemReadStaysInTheProgram :=
  ⟨fun m addr n _ => memRead_eq_sum m addr n, fun _ _ _ hm h => step_withProg hm h⟩

end Sys2Proof.Machine
end

section
/-! SUPPORT. What the decoder accepts on a list of bytes, read backwards: the opcode byte and the operands it consumed are
the encoding's (R60 to R64). Settles O5. -/

namespace Sys2Proof.Machine

/-! ### The operands that were read -/

theorem readJ_eq_ok {mk : Byte → Instr} {bs rest : List Byte} {i : Instr}
    (h : listCursor.readJ mk bs = .ok (i, rest)) : ∃ r, i = mk r ∧ bs = r :: rest := by
  rcases readJ_cases mk bs with ⟨r, _, hbs, he⟩ | ⟨e, he⟩ <;> cases he.symm.trans h
  exact ⟨r, rfl, hbs⟩

theorem readI_eq_ok {mk : Byte → Half → Instr} {bs rest : List Byte} {i : Instr}
    (h : listCursor.readI mk bs = .ok (i, rest)) : ∃ d imm, i = mk d imm ∧ bs = d :: halfBytes imm ++ rest := by
  rcases readI_cases mk bs with ⟨d, hi, lo, _, hbs, he⟩ | ⟨e, he⟩ <;> cases he.symm.trans h
  obtain ⟨hhi, hlo⟩ := extract_append hi lo
  exact ⟨d, hi ++ lo, rfl, by rw [hbs, halfBytes, hhi, hlo]; rfl⟩

theorem read3_eq_ok {mk : Byte → Byte → Byte → Instr} {bs rest : List Byte} {i : Instr}
    (h : listCursor.read3 mk bs = .ok (i, rest)) : ∃ x y z, i = mk x y z ∧ bs = x :: y :: z :: rest := by
  rcases read3_cases mk bs with ⟨x, y, z, _, hbs, he⟩ | ⟨e, he⟩ <;> cases he.symm.trans h
  exact ⟨x, y, z, rfl, hbs⟩

/-- The operands of an opcode make an instruction of that opcode, and what was consumed are its operand bytes. -/
theorem readOperands_eq_ok {op : Opcode} {bs rest : List Byte} {i : Instr}
    (h : listCursor.readOperands op bs = .ok (i, rest)) : i.opcode = op ∧ bs = i.operandBytes ++ rest := by
  cases op with
  | nop | hlt => cases h; exact ⟨rfl, rfl⟩
  | load =>
    obtain ⟨d, imm, rfl, hbs⟩ := readI_eq_ok h
    exact ⟨rfl, hbs⟩
  | jmp | jmpf | jmpb | jeq | jne =>
    obtain ⟨r, rfl, hbs⟩ := readJ_eq_ok h
    exact ⟨rfl, hbs⟩
  | add | sub | mul | truediv | eq | ne | gt | lt | ge | le =>
    obtain ⟨x, y, z, rfl, hbs⟩ := read3_eq_ok h
    exact ⟨rfl, hbs⟩

/-- Bytes that decode begin with the opcode's byte, and the operand bytes follow it. -/
theorem decode_cons_eq_ok {b : Byte} {bs rest : List Byte} {i : Instr} (h : decode (b :: bs) = .ok (i, rest)) :
    i.opcode.value = b ∧ bs = i.operandBytes ++ rest := by
  cases ho : Opcode.ofByte b with
  | some op =>
    rw [decode_cons_of_some bs ho] at h
    obtain ⟨rfl, hbs⟩ := readOperands_eq_ok h
    exact ⟨Opcode.value_of_ofByte ho, hbs⟩
  | none => cases (decode_cons_of_none bs ho).symm.trans h

theorem operandBytes_length (i : Instr) : i.operandBytes.length + 1 = i.length := encode_length i

/-! ### A first byte that is no opcode -/

/-- A step on a byte that is no opcode takes the fault past that one byte (R65). -/
theorem step_of_unknownOpcode {s : State} (hr : s.status = .running) (h : s.pc.toNat < s.progLen.toNat)
    (ho : Opcode.ofByte (s.prog.read s.pc.toNat) = none) :
    step s = .next (s.faulted 1 .unknownOpcode ((s.prog.read s.pc.toNat).setWidth 64)) := by
  have hf := State.fetchInstr_eq h
  rw [ho] at hf
  exact step_of_fetchInstr_error hr h hf

/-- Settles O5: what decodes is read back by `decode_cons_eq_ok`, an unknown opcode by `decode_cons_of_none` and
`step_of_unknownOpcode`. -/
theorem lengthFixedByOpcodeByte : Obligations.LengthFixedByOpcodeByte := by
  refine ⟨fun b bs rest i h => ?decodes, fun _ bs ho => decode_cons_of_none bs ho, fun s t hr hlt ho h => ?step⟩
  case decodes =>
    obtain ⟨hop, hbs⟩ := decode_cons_eq_ok h
    refine ⟨hop, ?consumed, by cases i <;> rfl⟩
    have hlen := operandBytes_length i
    rw [hbs, List.length_append]
    omega
  case step =>
    cases (step_of_unknownOpcode hr hlt ho).symm.trans h
    exact State.advance_pc_toNat hlt

end Sys2Proof.Machine
end

section
/-! SUPPORT. NOP, whose statements after the fetch are none (R190). Settles O17. -/

namespace Sys2Proof.Machine

/-- NOP answers the state at pc_next itself: no statement follows its opcode fetch. -/
theorem exec_nop (s : State) : exec .nop s = .next (s.advance 1) := by
  have hbody : instrBody .nop (s.advance 1) = .ok (s.advance 1) := rfl
  exact (exec_eq_runBody .nop s).trans (State.runBody_ok hbody)

/-- Settles O17: NOP has no operand bytes, and by `exec_nop` its effect is the advance of pc by one byte. -/
theorem nopEffect : Obligations.NopEffect := by
  refine ⟨?encoding, fun s => ?effect⟩
  case encoding => rfl
  case effect => exact exec_nop s

end Sys2Proof.Machine
end

section
/-! SUPPORT. The encoder and the decoder undo each other, on every list of bytes (R60 to R66).
Settles O3, O4, O1, O2. -/

namespace Sys2Proof.Machine

/-- The operand bytes of an instruction are read back by its opcode's handler, and nothing after them is. -/
theorem readOperands_operandBytes (i : Instr) (rest : List Byte) :
    listCursor.readOperands i.opcode (i.operandBytes ++ rest) = .ok (i, rest) := by
  cases i with
  | load d imm =>
    have hread := readI_cons Instr.load d (imm.extractLsb' 8 8) (imm.extractLsb' 0 8) rest
    rw [halfBytes_join] at hread
    exact hread
  | nop | hlt => rfl
  | jmp | jmpf | jmpb | jeq | jne => rfl
  | add | sub | mul | truediv | eq | ne | gt | lt | ge | le => rfl

theorem decode_encode (i : Instr) (rest : List Byte) : decode (encode i ++ rest) = .ok (i, rest) :=
  (decode_cons_of_some _ (Opcode.ofByte_value i.opcode)).trans (readOperands_operandBytes i rest)

theorem encode_of_decode {bs rest : List Byte} {i : Instr} (h : decode bs = .ok (i, rest)) : bs = encode i ++ rest := by
  cases bs with
  | nil => cases h
  | cons b bs =>
    obtain ⟨rfl, rfl⟩ := decode_cons_eq_ok h
    rfl

/-- Settles O3: the opcode byte by `Opcode.ofByte_value`, the operands by `readOperands_operandBytes`. -/
theorem decodeOfEncode : Obligations.DecodeOfEncode := decode_encode

/-- Settles O4: what the decoder consumed, read backwards by `decode_cons_eq_ok`. -/
theorem encodeOfDecode : Obligations.EncodeOfDecode := fun _ _ _ => encode_of_decode

/-- Settles O1: each word that decodes is an encoding, written out; the two refusals are the decoder's own. -/
theorem specWordsDecode : Obligations.SpecWordsDecode :=
  ⟨decode_encode (.load 0 1000) [], decode_encode (.truediv 2 3 5) [0xFF], decode_encode (.eq 0 1 0xAB) [],
    decode_encode (.jmpb 1) [], decode_encode .hlt [0x00], rfl, decode_cons_of_none [0x00] rfl, rfl, rfl, rfl⟩

/-- Settles O2: the table by its definition, its inverse by `Opcode.ofByte_value` and `Opcode.ofByte_eq_none`. -/
theorem opcodeMap : Obligations.OpcodeMap :=
  ⟨rfl, rfl, rfl, rfl, rfl, rfl, rfl, rfl, rfl, rfl, rfl, rfl, rfl, rfl, rfl, rfl, rfl, rfl,
    Opcode.ofByte_value, Opcode.ofByte_eq_none⟩

end Sys2Proof.Machine
end

section
/-! SUPPORT. The fetch unit and one step, told by the decoder's answer on the bytes at pc (R44, R45, R60, R65, R69,
R70). Settles O7, O8, O9, O10, O11, O12, O13, O15. -/

namespace Sys2Proof.Machine

variable {s t : State}

/-- Settles O7: the bound decides, by the two fetches' lemmas on either side of it. -/
theorem fetchPrimitives : Obligations.FetchPrimitives := by
  intro s
  refine ⟨fun h => State.fetchByte_ok (BitVec.lt_def.1 h), fun h => State.fetchByte_error (BitVec.le_def.1 h),
    fun h => ⟨_, ?word, State.fetchWord_ok h⟩, fun h => State.fetchWord_error h⟩
  case word =>
    have hlo := (s.prog.read (s.pc.toNat + 1)).isLt
    rw [BitVec.toNat_append, ← Nat.shiftLeft_add_eq_or_of_lt hlo, Nat.shiftLeft_eq]
    omega

/-! ### The bytes at pc -/

theorem State.bytesAtPc_length (s : State) : s.bytesAtPc.length = min 4 (s.progLen.toNat - s.pc.toNat) := by
  simp [State.bytesAtPc, Config.maxInstrLength]

/-- Bytes that decode lie inside the program. -/
theorem State.length_le_of_decode {i : Instr} {rest : List Byte} (h : decode s.bytesAtPc = .ok (i, rest)) :
    s.pc.toNat + i.length ≤ s.progLen.toNat := by
  have hlen := congrArg List.length (encode_of_decode h)
  rw [State.bytesAtPc_length, List.length_append, encode_length] at hlen
  have := length_pos i
  omega

theorem State.pc_lt_of_decode {i : Instr} {rest : List Byte} (h : decode s.bytesAtPc = .ok (i, rest)) :
    s.pc.toNat < s.progLen.toNat := by
  have := State.length_le_of_decode h
  have := length_pos i
  omega

/-- Settles O8: the fetch unit's answer is the decoder's, and what decodes lies inside the program. -/
theorem fetchAgreesWithDecode : Obligations.FetchAgreesWithDecode := by
  intro s hlt
  have hfetch := State.fetchInstr_eq_fetchAnswer (BitVec.lt_def.1 hlt)
  split
  next i rest hd =>
    rw [hd] at hfetch
    exact ⟨hfetch, State.length_le_of_decode hd⟩
  next b hd => rw [hd] at hfetch; exact hfetch
  next left hd => rw [hd] at hfetch; exact hfetch

/-! ### A step that runs an instruction -/

theorem step_of_decode {i : Instr} {rest : List Byte} (hr : s.status = .running)
    (h : decode s.bytesAtPc = .ok (i, rest)) : step s = exec i s := by
  have hlt := State.pc_lt_of_decode h
  have hfetch := State.fetchInstr_eq_fetchAnswer hlt
  rw [h] at hfetch
  exact step_of_fetchInstr_ok hr hlt hfetch

theorem State.Fetches.decode {i : Instr} (h : s.Fetches (encode i)) : ∃ rest, decode s.bytesAtPc = .ok (i, rest) := by
  obtain ⟨rest, hw⟩ := window_of_fetches h (n := 4) ((encode_length i).trans_le (length_le_four i))
  exact ⟨rest, by rw [State.bytesAtPc_eq, hw, decode_encode]⟩

theorem step_of_fetches {i : Instr} (h : s.Fetches (encode i)) : step s = exec i s := by
  obtain ⟨rest, hd⟩ := h.decode
  exact step_of_decode h.1 hd

/-- Settles O9: `step_of_decode`. -/
theorem stepRunsDecodedInstruction : Obligations.StepRunsDecodedInstruction := fun _ _ _ => step_of_decode

/-- Settles O10: bytes that stand at pc are at the front of what the decoder sees. -/
theorem stepRunsEncodedInstruction : Obligations.StepRunsEncodedInstruction := fun _ _ => step_of_fetches

/-! ### A word placed at pc (log 24, log 25) -/

theorem State.Fetches.left {bs rest : List Byte} (h : s.Fetches (bs ++ rest)) : s.Fetches bs := by
  obtain ⟨hr, hlen, hread⟩ := h
  rw [List.length_append] at hlen
  refine ⟨hr, by omega, fun k b hk => hread k b ?_⟩
  rw [List.getElem?_append_left (List.getElem?_eq_some_iff.1 hk).1, hk]

/-- Bytes loaded at pc are what the machine fetches next. -/
theorem State.loadAtPc_fetches {bs : List Byte} (hwf : s.prog.wf) (hpc : s.pc.toNat + bs.length < 2 ^ 64) :
    (s.loadAtPc bs).Fetches bs := by
  refine ⟨rfl, ?inside, fun k b hk => ?bytes⟩
  case inside =>
    have hlen : (BitVec.ofNat 64 (s.pc.toNat + bs.length)).toNat = s.pc.toNat + bs.length := by
      rw [BitVec.toNat_ofNat, Nat.mod_eq_of_lt hpc]
    simp only [State.loadAtPc, BitVec.lt_def]
    split <;> omega
  case bytes =>
    have hread := Memory.read_writeBytes hwf s.pc.toNat bs (s.pc.toNat + k)
    rw [if_pos (Nat.le_add_right _ _), Nat.add_sub_cancel_left, hk] at hread
    exact hread

theorem tableBytes_length {nbits : Nat} (w : Nat) (h : nbits ≤ 32) : (tableBytes nbits w).length = 4 := by
  simp only [tableBytes, Config.maxInstrLength, List.length_append, List.length_map, List.length_range,
    List.length_replicate]
  omega

theorem decode_of_decodeTableWord {nbits w : Nat} {i : Instr} (h : decodeTableWord nbits w = some i) :
    ∃ rest, decode (tableBytes nbits w) = .ok (i, rest) := by
  unfold decodeTableWord at h
  split at h
  next j rest hd => cases h; exact ⟨rest, hd⟩
  next => cases h

/-- Settles O11: the four bytes of the word stand at pc, and they begin with the instruction's encoding. -/
theorem loadedWordRunsNext : Obligations.LoadedWordRunsNext := by
  intro s nbits w i hwf hpc hbits hw
  obtain ⟨rest, hd⟩ := decode_of_decodeTableWord hw
  have hfetch : (s.withFetchWord nbits w).Fetches (tableBytes nbits w) :=
    State.loadAtPc_fetches hwf (by rw [tableBytes_length w hbits]; exact hpc)
  rw [encode_of_decode hd] at hfetch
  exact step_of_fetches hfetch.left

/-! ### A step that runs none -/

/-- Settles O12: such a byte is no opcode (`Opcode.ofByte_eq_none`). -/
theorem unknownOpcodeFaults : Obligations.UnknownOpcodeFaults := fun _ hr hlt hb =>
  step_of_unknownOpcode hr (BitVec.lt_def.1 hlt) ((Opcode.ofByte_eq_none _).2 hb)

/-- Settles O13: `step_of_exhausted`. -/
theorem endOfProgramExhausts : Obligations.EndOfProgramExhausts := fun _ hr hge =>
  step_of_exhausted hr (BitVec.le_def.1 hge)

theorem step_answers (s : State) : ∃ t, step s = .next t := by
  rcases step_inversion s with ⟨-, he⟩ | ⟨-, -, he⟩ | ⟨-, -, i, u, -, he⟩ | ⟨-, -, r, u, -, he⟩
  · exact ⟨_, he⟩
  · exact ⟨_, he⟩
  · rw [he]; exact exec_answers i s
  · exact ⟨_, he⟩

/-- Settles O15: each case of `step_inversion` answers a next state. -/
theorem stepAlwaysAnswersNext : Obligations.StepAlwaysAnswersNext := step_answers

end Sys2Proof.Machine
end

section
/-! SUPPORT. What a running step can leave, said once: exhaustion, an instruction's effect, or a fault at a known
distance from pc_start; and the statements of 60_exceptions.md and 10_state.md R25 that follow.
Settles O40, O49, O16, O18, O38, O39. -/

namespace Sys2Proof.Machine

variable {s t u : State} {i : Instr}

/-! ### Bytes that end inside an instruction -/

theorem readJ_eq_error {mk : Byte → Instr} {bs : List Byte} {e : DecodeError}
    (h : listCursor.readJ mk bs = .error e) : ∃ left, e = .outOfBytes left ∧ left ≤ bs.length ∧ bs.length < 3 := by
  match bs, h with
  | [], rfl => exact ⟨0, rfl, by decide, by decide⟩

theorem readI_eq_error {mk : Byte → Half → Instr} {bs : List Byte} {e : DecodeError}
    (h : listCursor.readI mk bs = .error e) : ∃ left, e = .outOfBytes left ∧ left ≤ bs.length ∧ bs.length < 3 := by
  match bs, h with
  | [], rfl => exact ⟨0, rfl, by simp, by simp⟩
  | [_], rfl => exact ⟨0, rfl, by simp, by simp⟩
  | [_, _], rfl => exact ⟨1, rfl, by simp, by simp⟩

theorem read3_eq_error {mk : Byte → Byte → Byte → Instr} {bs : List Byte} {e : DecodeError}
    (h : listCursor.read3 mk bs = .error e) : ∃ left, e = .outOfBytes left ∧ left ≤ bs.length ∧ bs.length < 3 := by
  match bs, h with
  | [], rfl => exact ⟨0, rfl, by simp, by simp⟩
  | [_], rfl => exact ⟨0, rfl, by simp, by simp⟩
  | [_, _], rfl => exact ⟨0, rfl, by simp, by simp⟩

/-- Operands fail only for want of bytes: at most two are there, and no more than those are left unread. -/
theorem readOperands_eq_error {op : Opcode} {bs : List Byte} {e : DecodeError}
    (h : listCursor.readOperands op bs = .error e) :
    ∃ left, e = .outOfBytes left ∧ left ≤ bs.length ∧ bs.length < 3 := by
  cases op with
  | nop | hlt => cases h
  | load => exact readI_eq_error h
  | jmp | jmpf | jmpb | jeq | jne => exact readJ_eq_error h
  | add | sub | mul | truediv | eq | ne | gt | lt | ge | le => exact read3_eq_error h

/-- Below L the bytes at pc are no instruction for one of two reasons: the opcode byte, or the end of the program. -/
theorem State.decode_eq_error {e : DecodeError} (hlt : s.pc.toNat < s.progLen.toNat)
    (h : decode s.bytesAtPc = .error e) :
    Opcode.ofByte (s.prog.read s.pc.toNat) = none ∨
    ∃ left, e = .outOfBytes left ∧ s.pc.toNat + 1 + left ≤ s.progLen.toNat ∧ s.progLen.toNat < s.pc.toNat + 4 := by
  have hlen := s.bytesAtPc_length
  rw [State.bytesAtPc_eq, State.window_succ hlt] at h hlen
  rw [List.length_cons] at hlen
  cases ho : Opcode.ofByte (s.prog.read s.pc.toNat) with
  | none => exact .inl rfl
  | some op =>
    rw [decode_cons_of_some _ ho] at h
    obtain ⟨left, rfl, hleft, hshort⟩ := readOperands_eq_error h
    exact .inr ⟨left, rfl, by omega, by omega⟩

/-! ### The outcome of a running step -/

/-- The raise of a step that has fetched `n` bytes at `s`: an instruction's own, or the fetch unit's (R44, R45, R65). -/
inductive FaultAfter (s : State) (n : Nat) : Raise → Prop
  | body {i : Instr} {r : Raise} (hl : i.length = n) (h : Raises i (s.advance n) r) : FaultAfter s n r
  | unknownOpcode (hn : n = 1) (h : Opcode.ofByte (s.prog.read s.pc.toNat) = none) :
      FaultAfter s n ⟨.unknownOpcode, (s.prog.read s.pc.toNat).setWidth 64⟩
  | outOfBounds (h : s.progLen.toNat < s.pc.toNat + 4) :
      FaultAfter s n ⟨.outOfBounds, s.pc + BitVec.ofNat 64 n⟩

/-- The next state of a step in RUNNING (R69, R70, R202). -/
inductive Stepped (s : State) : State → Prop
  | exhausted : Stepped s s.exhaust
  | ran {i : Instr} {rest : List Byte} {t : State} (hd : decode s.bytesAtPc = .ok (i, rest))
      (h : Effect i (s.advance i.length) t) : Stepped s t
  | faulted {n : Nat} {r : Raise} (hpos : 1 ≤ n) (hle : n ≤ 4) (hin : s.pc.toNat + n ≤ s.progLen.toNat)
      (h : FaultAfter s n r) : Stepped s (s.faulted n r.cause r.info)

/-- Every step in RUNNING is one of them, by what the decoder makes of the bytes at pc. -/
theorem stepped_of_running (hr : s.status = .running) (h : step s = .next t) : Stepped s t := by
  rcases Nat.lt_or_ge s.pc.toNat s.progLen.toNat with hlt | hge
  case inr =>
    cases (step_of_exhausted hr hge).symm.trans h
    exact .exhausted
  rcases hd : decode s.bytesAtPc with e | ⟨i, rest⟩
  case ok =>
    rw [step_of_decode hr hd] at h
    rcases exec_cases i s with ⟨u, heff, he⟩ | ⟨r, hraise, he⟩ <;> cases he.symm.trans h
    · exact .ran hd heff
    · exact .faulted (length_pos i) (length_le_four i) (State.length_le_of_decode hd) (.body rfl hraise)
  rcases State.decode_eq_error hlt hd with ho | ⟨left, rfl, hstop, hend⟩
  · cases (step_of_unknownOpcode hr hlt ho).symm.trans h
    exact .faulted le_rfl (by decide) hlt (.unknownOpcode rfl ho)
  · have hfetch := State.fetchInstr_eq_fetchAnswer hlt
    rw [hd] at hfetch
    cases (step_of_fetchInstr_error hr hlt hfetch).symm.trans h
    have hpc : s.progLen - BitVec.ofNat 64 left = s.pc + BitVec.ofNat 64 (s.progLen.toNat - left - s.pc.toNat) := by
      bv_omega
    rw [hpc]
    exact .faulted (by omega) (by omega) (by omega) (.outOfBounds hend)

/-! ### What an effect leaves unchanged -/

/-- An effect keeps the status, but for HLT's. -/
theorem Effect.status (h : Effect i u t) : t.status = u.status ∨ (i = .hlt ∧ t.status = .halted) := by
  cases h with
  | halt hi => exact .inr ⟨hi, rfl⟩
  | nothing | register | flag | jump => exact .inl rfl

theorem Effect.record (h : Effect i u t) : t.faultPc = u.faultPc ∧ t.faultDetail = u.faultDetail := by
  cases h <;> exact ⟨rfl, rfl⟩

theorem Effect.pc (h : Effect i u t) (hj : i.isJump = false) : t.pc = u.pc := by
  cases h with
  | jump hjump => exact absurd hjump (by simp [hj])
  | nothing | register | flag | halt => rfl

theorem Effect.finite (h : Effect i u t) (hu : ∀ v ∈ u.regs, v.isFinite = true) : ∀ v ∈ t.regs, v.isFinite = true := by
  cases h with
  | register _ hfin _ =>
    intro v hv
    rcases List.mem_or_eq_of_mem_set hv with hold | rfl
    · exact hu v hold
    · exact hfin
  | nothing | flag | jump | halt => exact hu

/-- From RUNNING an effect takes no fault. -/
theorem Effect.status_ne_fault (h : Effect i u t) (hu : u.status = .running) (c : FaultCause) :
    t.status ≠ .fault c := by
  rcases h.status with hs | ⟨-, hs⟩ <;> simp [hs, hu]

/-! ### pc, the status and the record of one instruction -/

theorem exec_pc (hj : i.isJump = false) (h : exec i s = .next t) : t.pc = (s.advance i.length).pc := by
  rcases exec_cases i s with ⟨u, heff, he⟩ | ⟨r, -, he⟩ <;> cases he.symm.trans h
  · exact heff.pc hj
  · rfl

/-- Settles O16: the instruction's bytes lie inside the program, where the advance does not wrap. -/
theorem sequentialPcNeverWraps : Obligations.SequentialPcNeverWraps := by
  intro s t i hfetch hj h
  obtain ⟨rest, hd⟩ := hfetch.decode
  rw [step_of_fetches hfetch] at h
  rw [exec_pc hj h, State.advance_pc_toNat (State.length_le_of_decode hd)]

theorem exec_hlt (s : State) : exec .hlt s = .next (s.advance 1).halt := by
  have hbody : instrBody .hlt (s.advance 1) = .ok (s.advance 1).halt := rfl
  exact (exec_eq_runBody .hlt s).trans (State.runBody_ok hbody)

/-- Settles O18: `exec_hlt`, and HALTED is terminal. -/
theorem hltEffect : Obligations.HltEffect := by
  refine ⟨?encoding, fun s => ⟨exec_hlt s, ?sticky⟩⟩
  case encoding => rfl
  case sticky => exact step_of_terminal (s := (s.advance 1).halt) nofun

/-- An instruction's own raise is never the fetch unit's. -/
theorem Raises.cause_ne {r : Raise} (h : Raises i u r) : r.cause ≠ .outOfBounds ∧ r.cause ≠ .unknownOpcode := by
  cases h <;> exact ⟨nofun, nofun⟩

/-- Settles O38: HLT by `exec_hlt`; any other instruction keeps status and record, or takes its own fault. -/
theorem statusFrame : Obligations.StatusFrame := by
  intro i s t hr h
  by_cases hi : i = .hlt
  · subst hi
    cases (exec_hlt s).symm.trans h
    exact .inr (.inl ⟨rfl, rfl, rfl, rfl⟩)
  rcases exec_cases i s with ⟨u, heff, he⟩ | ⟨r, hraise, he⟩ <;> cases he.symm.trans h
  · rcases heff.status with hs | ⟨hhlt, -⟩
    · exact .inl ⟨hs.trans hr, hi, heff.record⟩
    · exact absurd hhlt hi
  · obtain ⟨hbounds, hopcode⟩ := hraise.cause_ne
    exact .inr (.inr ⟨r.cause, rfl, hbounds, hopcode, rfl⟩)

/-- Settles O39: by the outcomes of a running step, a fault is the state at pc_start moved on by what was fetched. -/
theorem faultsArePrecise : Obligations.FaultsArePrecise := by
  intro s t hr h
  cases stepped_of_running hr h with
  | exhausted => exact ⟨nofun, fun _ => ⟨rfl, rfl⟩⟩
  | ran _ heff => exact ⟨fun c hc => absurd hc (heff.status_ne_fault hr c), fun _ => heff.record⟩
  | @faulted n r hpos hle hin _ =>
    have hpc : (s.faulted n r.cause r.info).pc.toNat = s.pc.toNat + n := State.advance_pc_toNat hin
    refine ⟨fun c _ => ⟨rfl, rfl, rfl, by omega, by omega, ?_⟩, fun hno => absurd rfl (hno r.cause)⟩
    exact BitVec.le_def.2 (hpc.trans_le hin)

/-! ### The fault record agrees with the fault (R200, R202) -/

/-- Without a fault there is nothing to agree with. -/
theorem State.coherent_of_not_fault (h : ∀ c, t.status ≠ .fault c) : t.FaultRecordCoherent := by
  unfold State.FaultRecordCoherent
  cases hs : t.status with
  | fault c => exact absurd hs (h c)
  | running | halted | exhausted => trivial

theorem State.coherent_setReg {r : RegIdx} {v : F64} :
    (s.setReg r v).FaultRecordCoherent ↔ s.FaultRecordCoherent := by
  simp only [State.FaultRecordCoherent, State.setReg_status, State.setReg_faultPc, State.setReg_faultDetail,
    State.setReg_pc, State.setReg_prog, State.setReg_progLen, State.setReg_regCount]

/-- An instruction that names a register has operand bytes: it is two or four bytes long. -/
theorem length_of_mem_names {r : RegIdx} (h : r ∈ i.names) : i.length = 2 ∨ i.length = 4 := by
  cases i with
  | nop | hlt => cases h
  | jmp | jmpf | jmpb | jeq | jne => exact .inl rfl
  | load | add | sub | mul | truediv | eq | ne | gt | lt | ge | le => exact .inr rfl

/-- A fault's detail holds a byte or a register index as it is. -/
theorem setWidth_toNat (b : Byte) : (b.setWidth 64).toNat = b.toNat :=
  BitVec.toNat_setWidth_of_le (by decide)

/-- A fault taken within the program has a record that agrees with it. -/
theorem FaultAfter.coherent {n : Nat} {r : Raise} (hpos : 1 ≤ n) (hin : s.pc.toNat + n ≤ s.progLen.toNat)
    (h : FaultAfter s n r) : (s.faulted n r.cause r.info).FaultRecordCoherent := by
  have hpc : (s.pc + BitVec.ofNat 64 n).toNat = s.pc.toNat + n := State.advance_pc_toNat hin
  have hlt : s.pc < s.progLen := BitVec.lt_def.2 (by omega)
  cases h with
  | @body i _ hl hraise =>
    cases hraise with
    | @registerNotFound q hq hge =>
      refine ⟨hlt, hge.trans_eq (setWidth_toNat q).symm, (setWidth_toNat q).trans_lt q.isLt, ?_⟩
      exact (length_of_mem_names hq).imp (fun h2 => hpc.trans (by rw [← hl, h2]; rfl))
        (fun h4 => hpc.trans (by rw [← hl, h4]; rfl))
    | @divisionByZero q h4 hq => exact ⟨hlt, hpc.trans (by rw [← hl, h4]; rfl), (setWidth_toNat q).trans_lt hq⟩
    | @badJumpTarget q h2 hq => exact ⟨hlt, hpc.trans (by rw [← hl, h2]; rfl), (setWidth_toNat q).trans_lt hq⟩
    | @arithmeticOverflow q h4 =>
      exact ⟨hlt, hpc.trans (by rw [← hl, h4]; rfl), (setWidth_toNat q).trans_lt q.isLt⟩
  | unknownOpcode hn ho =>
    have hbyte := (Opcode.ofByte_eq_none _).1 ho
    subst hn
    exact ⟨hlt, hpc, setWidth_toNat _, (BitVec.le_def.1 hbyte).trans_eq (setWidth_toNat _).symm⟩
  | outOfBounds hend =>
    exact ⟨hlt, rfl, BitVec.lt_def.2 (by rw [State.faulted_pc, State.faulted_faultPc, hpc]; omega),
      BitVec.le_def.2 (hpc.trans_le hin), hend⟩

theorem step_coherent (hs : s.FaultRecordCoherent) (h : step s = .next t) : t.FaultRecordCoherent := by
  by_cases hr : s.status = .running
  · cases stepped_of_running hr h with
    | exhausted => exact State.coherent_of_not_fault nofun
    | ran _ heff => exact State.coherent_of_not_fault (heff.status_ne_fault hr)
    | faulted hpos _ hin hfault => exact hfault.coherent hpos hin
  · cases (step_of_terminal hr).symm.trans h
    exact hs

/-- Settles O40: a step by the outcomes of a running step, each fault's record by `FaultAfter.coherent`; a host write
touches nothing the record is compared with. -/
theorem faultRecordStaysCoherent : Obligations.FaultRecordStaysCoherent := by
  refine ⟨fun s t => step_coherent, fun s t r v hs h => ?hostWrite⟩
  case hostWrite =>
    obtain ⟨-, -, rfl⟩ := hostWriteReg_eq_ok_iff.1 h
    exact State.coherent_setReg.2 hs

/-! ### The invariant (R21, R25, R30, R40) -/

/-- The invariant speaks, beside what construction fixed, of the registers' values and the fault record only. -/
theorem State.Inv.of_sameConfig (hs : s.Inv) (hc : s.SameConfig t) (hfin : ∀ v ∈ t.regs, v.isFinite = true)
    (hrec : (∀ c, t.status ≠ .fault c) → t.faultPc = 0 ∧ t.faultDetail = 0) : t.Inv where
  regCount := hc.regCount.trans_le hs.regCount
  finite := hfin
  progWf := by rw [hc.prog]; exact hs.progWf
  inside := by rw [hc.prog, hc.progLen]; exact hs.inside
  noRecord := hrec

theorem step_inv (hs : s.Inv) (h : step s = .next t) : t.Inv := by
  by_cases hr : s.status = .running
  · have hc := step_sameConfig h
    obtain ⟨hpc, hdetail⟩ : s.faultPc = 0 ∧ s.faultDetail = 0 := hs.noRecord (by simp [hr])
    cases stepped_of_running hr h with
    | exhausted => exact hs.of_sameConfig hc hs.finite fun _ => ⟨hpc, hdetail⟩
    | ran _ heff =>
      obtain ⟨hkeptPc, hkeptDetail⟩ := heff.record
      exact hs.of_sameConfig hc (heff.finite hs.finite) fun _ => ⟨hkeptPc.trans hpc, hkeptDetail.trans hdetail⟩
    | @faulted n r _ _ _ _ => exact hs.of_sameConfig hc hs.finite fun hno => absurd rfl (hno r.cause)
  · cases (step_of_terminal hr).symm.trans h
    exact hs

/-- Settles O49: the outcomes of a running step, none of which writes a value that is not finite (`Effect.finite`). -/
theorem stepKeepsInv : Obligations.StepKeepsInv := fun _ _ => step_inv

end Sys2Proof.Machine
end

section
/-! SUPPORT. The host's side: what CONSTRUCT accepts and leaves (R230, R231), the values WRITE_REG refuses (R37), the
status codes (R29), and runs as iterated steps (R71, R73). Settles O45, O46, O47, O48, O50, O44, O41, O14, O51, O52. -/

namespace Sys2Proof.Machine

variable {s t u : State}

/-! ### Construction -/

theorem construct_of_legal {prog : List Byte} {n : Nat} (hn : n ≤ 256) (hl : prog.length ≤ 2 ^ 64 - 1) :
    construct prog n = .ok (State.initial (Memory.ofBytes prog) (BitVec.ofNat 64 prog.length) n) := by
  have hcount : legalRegCount n = true := decide_eq_true hn
  have hlen : legalProgLen prog.length = true := decide_eq_true hl
  rw [construct, if_pos hcount, if_pos hlen]

theorem construct_of_tooManyRegisters {n : Nat} (prog : List Byte) (hn : 256 < n) :
    construct prog n = .error .tooManyRegisters := by
  have hcount : ¬ legalRegCount n = true := fun h => Nat.not_le.2 hn (of_decide_eq_true h)
  rw [construct, if_neg hcount]

theorem construct_of_programTooLong {prog : List Byte} {n : Nat} (hn : n ≤ 256) (hl : 2 ^ 64 - 1 < prog.length) :
    construct prog n = .error .programTooLong := by
  have hcount : legalRegCount n = true := decide_eq_true hn
  have hlen : ¬ legalProgLen prog.length = true := fun h => Nat.not_le.2 hl (of_decide_eq_true h)
  rw [construct, if_pos hcount, if_neg hlen]

/-- A construction that succeeds had legal arguments, and answers the initial state. -/
theorem construct_eq_ok_iff {prog : List Byte} {n : Nat} :
    construct prog n = .ok s ↔ n ≤ 256 ∧ prog.length ≤ 2 ^ 64 - 1 ∧
      s = State.initial (Memory.ofBytes prog) (BitVec.ofNat 64 prog.length) n := by
  rcases Nat.lt_or_ge 256 n with hn | hn
  · simp [construct_of_tooManyRegisters prog hn, hn]
  rcases Nat.lt_or_ge (2 ^ 64 - 1) prog.length with hl | hl
  · rw [construct_of_programTooLong hn hl]
    exact ⟨nofun, fun ⟨_, h, _⟩ => absurd h (Nat.not_le.2 hl)⟩
  · rw [construct_of_legal hn hl]
    exact ⟨fun h => ⟨hn, hl, by cases h; rfl⟩, fun ⟨_, _, h⟩ => by rw [h]⟩

/-- Byte `k` of the program stands at address `k` (R40). -/
theorem Memory.read_ofBytes {bs : List Byte} {k : Nat} {b : Byte} (h : bs[k]? = some b) :
    (Memory.ofBytes bs).read k = b := by
  rw [Memory.ofBytes, Memory.read_writeBytes Memory.wf_nil, if_pos (Nat.zero_le k), Nat.sub_zero, h, Option.getD_some]

/-- A program's cells lie inside it. -/
theorem Memory.mem_ofBytes {bs : List Byte} {c : Host.Cell} (h : c ∈ Memory.ofBytes bs) : c.1 < bs.length := by
  rcases Memory.mem_writeBytes h with ⟨-, hlt⟩ | hnil
  · simpa using hlt
  · cases hnil

theorem toNat_progLen {l : Nat} (h : l ≤ 2 ^ 64 - 1) : (BitVec.ofNat 64 l).toNat = l := by
  rw [BitVec.toNat_ofNat, Nat.mod_eq_of_lt (by omega)]

theorem initial_readReg (m : Memory) (l : Word) {n : Nat} {i : RegIdx} (h : i.toNat < n) :
    (State.initial m l n).readReg i = .ok F64.posZero :=
  State.readReg_of_some (by rw [State.initial_regs, List.getElem?_replicate, if_pos h])

/-- Settles O45: the two refusals, and the initial state read off its definition. -/
theorem constructionState : Obligations.ConstructionState := by
  intro prog n
  refine ⟨construct_of_tooManyRegisters prog, construct_of_programTooLong,
    fun hn hl => ⟨_, construct_of_legal hn hl, ?_⟩⟩
  exact ⟨List.length_replicate, fun i => initial_readReg _ _, rfl, rfl, rfl, rfl, rfl, toNat_progLen hl,
    fun k b => Memory.read_ofBytes⟩

/-- Settles O46: the empty program is legal, and nothing is written of it. -/
theorem resetIsEmptyConstruction : Obligations.ResetIsEmptyConstruction :=
  ⟨construct_of_legal (by decide) (Nat.zero_le _), rfl, rfl, rfl, rfl, rfl, rfl, rfl, rfl⟩

/-- Settles O48: slots of `+0.0`, the program's cells by `Memory.wf_ofBytes` and `Memory.mem_ofBytes`. -/
theorem invHoldsAfterConstruction : Obligations.InvHoldsAfterConstruction := by
  intro prog n s h
  obtain ⟨hn, hl, rfl⟩ := construct_eq_ok_iff.1 h
  exact
    { regCount := List.length_replicate.trans_le hn
      finite := fun v hv => by rw [List.eq_of_mem_replicate hv]; rfl
      progWf := Memory.wf_ofBytes prog
      inside := fun c hc => (Memory.mem_ofBytes hc).trans_eq (toNat_progLen hl).symm
      noRecord := fun _ => ⟨rfl, rfl⟩ }

/-- Settles O47: reset is a construction. -/
theorem invHoldsAtReset : Obligations.InvHoldsAtReset :=
  invHoldsAfterConstruction [] Config.defaultRegCount State.reset resetIsEmptyConstruction.1

/-! ### Host writes and the status codes -/

/-- Settles O44: the value is checked before the index. -/
theorem hostWriteRefusesNonFinite : Obligations.HostWriteRefusesNonFinite := by
  intro s i v hv
  rw [hostWriteReg, if_neg (by simp [hv])]

/-- Settles O50: an accepted write puts a finite value in one slot and changes nothing else. -/
theorem hostWriteKeepsInv : Obligations.HostWriteKeepsInv := by
  intro s t i v hs h
  have hc := hostWriteReg_sameConfig h
  obtain ⟨hv, -, rfl⟩ := hostWriteReg_eq_ok_iff.1 h
  refine hs.of_sameConfig hc (fun w hw => ?finite) hs.noRecord
  rcases List.mem_or_eq_of_mem_set hw with hold | rfl
  · exact hs.finite w hold
  · exact hv

/-- Settles O41: READ_STATUS is the code of the status beside the record. -/
theorem statusCodes : Obligations.StatusCodes := by
  intro s
  unfold hostReadStatus
  cases s.status with
  | running | halted | exhausted => rfl
  | fault c => cases c <;> rfl

/-! ### Runs -/

theorem runFor_of_terminal (h : s.status ≠ .running) (k : Nat) : runFor k s = .next s := by
  cases k with
  | zero => rfl
  | succ k => exact if_neg h

theorem runFor_succ_of_running {k : Nat} (hr : s.status = .running) (h : step s = .next t) :
    runFor (k + 1) s = runFor k t := by
  rw [runFor, if_pos hr, h]

/-- Settles O14: `step_of_terminal`, and a run takes no step in a terminal status. -/
theorem terminalStatusIsSticky : Obligations.TerminalStatusIsSticky := fun _ h =>
  ⟨step_of_terminal h, runFor_of_terminal h⟩

/-- What every step keeps holds at the end of any number of steps. -/
theorem runFor_keeps {P : State → Prop} (hstep : ∀ u v, P u → step u = .next v → P v) {k : Nat} (hs : P s)
    (h : runFor k s = .next t) : P t := by
  induction k generalizing s with
  | zero => cases h; exact hs
  | succ k ih =>
    by_cases hr : s.status = .running
    · obtain ⟨u, hu⟩ := step_answers s
      exact ih (hstep s u hs hu) ((runFor_succ_of_running hr hu).symm.trans h)
    · cases (runFor_of_terminal hr _).symm.trans h
      exact hs

/-- More steps change nothing once a run has ended. -/
theorem runFor_add_of_terminal {k : Nat} (h : runFor k s = .next t) (ht : t.status ≠ .running) (j : Nat) :
    runFor (k + j) s = .next t := by
  induction k generalizing s with
  | zero => cases h; exact runFor_of_terminal ht _
  | succ k ih =>
    by_cases hr : s.status = .running
    · obtain ⟨u, hu⟩ := step_answers s
      rw [runFor_succ_of_running hr hu] at h
      rw [Nat.add_right_comm, runFor_succ_of_running hr hu]
      exact ih h
    · rw [runFor_of_terminal hr] at h ⊢
      exact h

theorem runsTo_unique (ht : RunsTo s t) (hu : RunsTo s u) : t = u := by
  obtain ⟨k, hk, htend⟩ := ht
  obtain ⟨l, hl, huend⟩ := hu
  have hkl := runFor_add_of_terminal hk htend l
  have hlk := runFor_add_of_terminal hl huend k
  rw [Nat.add_comm] at hlk
  cases hkl.symm.trans hlk
  rfl

/-- Settles O51: `runFor_add_of_terminal`, so that two ends agree after the sum of their steps. -/
theorem runEndsOnce : Obligations.RunEndsOnce :=
  ⟨fun _ _ _ => runFor_add_of_terminal, fun _ _ _ => runsTo_unique⟩

/-- A terminal status is one of the two kinds of end (R73). -/
theorem Status.isCleanEnd_or_isErrorEnd {c : Status} (h : c ≠ .running) :
    c.isCleanEnd = true ∨ c.isErrorEnd = true := by
  cases c with
  | running => exact absurd rfl h
  | halted | exhausted => exact .inl rfl
  | fault _ => exact .inr rfl

theorem State.SameConfig.refl (s : State) : s.SameConfig s := ⟨rfl, rfl, rfl⟩

theorem State.SameConfig.trans (hst : s.SameConfig t) (htu : t.SameConfig u) : s.SameConfig u :=
  ⟨htu.prog.trans hst.prog, htu.progLen.trans hst.progLen, htu.regCount.trans hst.regCount⟩

/-- Settles O52: the invariant and the program are kept along the run by `step_inv` and `step_sameConfig`. -/
theorem runsEndWellFormed : Obligations.RunsEndWellFormed := by
  rintro s t hs ⟨k, hk, hend⟩
  have hinv : t.Inv := runFor_keeps (fun _ _ => step_inv) hs hk
  have hconfig : s.SameConfig t := runFor_keeps (fun _ _ hc h => hc.trans (step_sameConfig h)) (.refl s) hk
  exact ⟨hinv, Status.isCleanEnd_or_isErrorEnd hend, hconfig.prog, hconfig.progLen, hinv.finite⟩

end Sys2Proof.Machine
end

section
/-! SUPPORT. Correct rounding (R111, R112): `round` is nearest with ties to even, and so is every operation's result.
Settles O21, O22, O23, O24. -/

namespace Sys2Proof

/-! ### Distances of signed values and of their magnitudes -/

/-- A value that has not the opposite sign of `q` is as far from it as their magnitudes are apart. -/
theorem abs_sub_of_mul_nonneg {r q : ℚ} (h : 0 ≤ r * q) : |r - q| = |(|r| - |q|)| := by
  rcases mul_nonneg_iff.1 h with ⟨hr, hq⟩ | ⟨hr, hq⟩
  · rw [abs_of_nonneg hr, abs_of_nonneg hq]
  · rw [abs_of_nonpos hr, abs_of_nonpos hq, neg_sub_neg, abs_sub_comm]

/-- A value of the opposite sign is further away. -/
theorem lt_abs_sub_of_mul_neg {z q : ℚ} (h : z * q < 0) : |(|z| - |q|)| < |z - q| := by
  rcases mul_neg_iff.1 h with ⟨hz, hq⟩ | ⟨hz, hq⟩
  · rw [abs_of_pos hz, abs_of_neg hq, abs_of_pos (sub_pos.2 (hq.trans hz)), abs_lt]
    constructor <;> linarith
  · rw [abs_of_neg hz, abs_of_pos hq, abs_of_neg (sub_neg.2 (hz.trans hq)), abs_lt]
    constructor <;> linarith

/-- How far the magnitude of `z` is from that of `q`, in the fraction the rounding is given. -/
theorem abs_real_sub_abs (z : F64) (q : ℚ) :
    |(|z.real| - |q|)| = |(z.magnitude : ℚ) * q.den - (q.num.natAbs * 2 ^ 1074 : Nat)| / (q.den * 2 ^ 1074) := by
  have hd : (0 : ℚ) < q.den := by exact_mod_cast q.den_pos
  have hD : (0 : ℚ) < q.den * 2 ^ 1074 := mul_pos hd units_pos
  have hz : |z.real| = z.magnitude * q.den / (q.den * 2 ^ 1074) := by
    rw [F64.abs_real, mul_comm (z.magnitude : ℚ), mul_div_mul_left _ _ hd.ne']
  rw [abs_eq_units q, hz, ← sub_div, abs_div, abs_of_pos hD]

/-! ### `round` -/

theorem F64.round_neg (neg : Bool) (q : ℚ) : (F64.round neg q).neg = neg := F64.ofFields_neg neg _

/-- A rounding is finite below the overflow threshold and nowhere else. -/
theorem F64.round_isFinite_iff (neg : Bool) (q : ℚ) :
    (F64.round neg q).isFinite = true ↔ |q| < overflowThreshold := by
  rw [F64.round, F64.ofFields_isFinite, decide_eq_true_iff, threshold_iff]

theorem F64.magnitude_round (neg : Bool) {q : ℚ} (h : |q| < overflowThreshold) :
    (F64.round neg q).magnitude =
      roundHalfEven (q.num.natAbs * 2 ^ 1074) (q.den * 2 ^ lastPlace (q.num.natAbs * 2 ^ 1074) q.den) *
        2 ^ lastPlace (q.num.natAbs * 2 ^ 1074) q.den := by
  rw [F64.round, F64.magnitude_ofFields neg ((threshold_iff q).1 h), fieldsMagnitude_roundFields _ q.den_pos]

/-- Among magnitudes the rounding's is nearest to that of `q`, and even where another is as near. -/
theorem F64.round_abs_nearest (neg : Bool) {q : ℚ} (h : |q| < overflowThreshold) (z : F64) :
    |(|(F64.round neg q).real| - |q|)| ≤ |(|z.real| - |q|)| ∧
    (|(|z.real| - |q|)| = |(|(F64.round neg q).real| - |q|)| → |z.real| ≠ |(F64.round neg q).real| →
      (F64.round neg q).frac.getLsbD 0 = false) := by
  have hD : (0 : ℚ) < q.den * 2 ^ 1074 := mul_pos (by exact_mod_cast q.den_pos) units_pos
  obtain ⟨hnear, heven⟩ := mag_nearest (q.num.natAbs * 2 ^ 1074) q.den_pos z
  have hmag := congrArg (Nat.cast (R := ℚ)) (F64.magnitude_round neg h)
  rw [Nat.cast_mul, Nat.cast_pow, Nat.cast_ofNat] at hmag
  rw [← hmag] at hnear heven
  rw [abs_real_sub_abs, abs_real_sub_abs, div_le_div_iff_of_pos_right hD, div_left_inj' hD.ne', F64.abs_real,
    F64.abs_real, Ne, div_left_inj' units_pos.ne']
  refine ⟨hnear, fun htie hne => ?_⟩
  rw [F64.round, lastBit_rounded neg ((threshold_iff q).1 h), heven htie hne]
  rfl

/-- `r` is the result R111 demands for the exact `q` and the sign bit `neg`. -/
structure F64.Rounds (r : F64) (neg : Bool) (q : ℚ) : Prop where
  rounding : |q| < overflowThreshold → r.IsRoundingOf q
  sign     : r.neg = neg
  finite   : r.isFinite = true ↔ |q| < overflowThreshold

theorem F64.round_isRoundingOf {neg : Bool} {q : ℚ} (hneg : q < 0 → neg = true) (hpos : 0 < q → neg = false)
    (h : |q| < overflowThreshold) : (F64.round neg q).IsRoundingOf q := by
  have hfinite := (F64.round_isFinite_iff neg q).2 h
  have hmag := F64.round_abs_nearest neg h
  have hsign := F64.round_neg neg q
  generalize F64.round neg q = r at hfinite hmag hsign
  have hrq : 0 ≤ r.real * q := by
    cases neg with
    | true => exact mul_nonneg_of_nonpos_of_nonpos (F64.real_nonpos hsign) (not_lt.1 fun hq => nomatch hpos hq)
    | false => exact mul_nonneg (F64.real_nonneg hsign) (not_lt.1 fun hq => nomatch hneg hq)
  have hr := abs_sub_of_mul_nonneg hrq
  have hnear : ∀ z : F64, |r.real - q| ≤ |z.real - q| := fun z =>
    hr.trans_le ((hmag z).1.trans (abs_abs_sub_abs_le _ _))
  refine ⟨hfinite, fun z _ => hnear z, fun z _ htie hne => ?tie⟩
  by_cases habs : |z.real| = |r.real|
  case neg =>
    exact (hmag z).2 (le_antisymm ((abs_abs_sub_abs_le _ _).trans_eq (htie.trans hr)) (hmag z).1) habs
  -- The one other value of the same magnitude has the opposite sign, and is no nearer only if `q` is 0.
  exfalso
  have hz : z.real = -r.real := (abs_eq_abs.1 habs).resolve_left hne
  rcases hrq.lt_or_eq with hlt | hzero
  · have hfar := lt_abs_sub_of_mul_neg (z := z.real) (q := q) (by rw [hz, neg_mul]; exact neg_neg_of_pos hlt)
    rw [habs, htie, hr] at hfar
    exact lt_irrefl _ hfar
  · have hr0 : r.real = 0 := by
      rcases mul_eq_zero.1 hzero.symm with hr0 | hq0
      · exact hr0
      · have h0 := hnear F64.posZero
        rw [F64.real_posZero, hq0, sub_zero, sub_zero, abs_zero] at h0
        exact abs_nonpos_iff.1 h0
    exact hne (by rw [hz, hr0, neg_zero])

theorem F64.round_rounds {neg : Bool} {q : ℚ} (hneg : q < 0 → neg = true) (hpos : 0 < q → neg = false) :
    (F64.round neg q).Rounds neg q :=
  ⟨F64.round_isRoundingOf hneg hpos, F64.round_neg neg q, F64.round_isFinite_iff neg q⟩

/-- Settles O21: nearest among magnitudes is nearest among signed values, since the rounding has the sign of `q`. -/
theorem roundingIsCorrect : Obligations.RoundingIsCorrect := by
  intro neg q hneg hpos
  obtain ⟨hround, hsign, hfinite⟩ := F64.round_rounds hneg hpos
  exact ⟨fun h => ⟨hround h, hsign⟩, fun h => Bool.eq_false_iff.2 (mt hfinite.1 (not_lt.2 h))⟩

/-! ### The four operations -/

theorem overflowThreshold_pos : 0 < overflowThreshold :=
  sub_pos.2 (pow_lt_pow_right₀ one_lt_two (by norm_num))

/-- Either zero is the rounding of 0. -/
theorem F64.rounds_of_real_eq_zero {r : F64} (hf : r.isFinite = true) (h : r.real = 0) : r.Rounds r.neg 0 := by
  have hlt : |(0 : ℚ)| < overflowThreshold := by rw [abs_zero]; exact overflowThreshold_pos
  refine ⟨fun _ => ⟨hf, fun z _ => ?nearest, fun z _ htie hne => ?tie⟩, rfl, iff_of_true hf hlt⟩
  case nearest => rw [h, sub_zero, abs_zero]; exact abs_nonneg _
  case tie =>
    rw [h, sub_zero, sub_zero, abs_zero, abs_eq_zero] at htie
    exact absurd (htie.trans h.symm) hne

/-- The sign bit R111 gives the result of an operation. -/
def ArithOp.sign : ArithOp → F64 → F64 → Bool
  | .fadd, x, y => if x.real + y.real = 0 then x.neg && y.neg else x.real + y.real < 0
  | .fsub, x, y => if x.real - y.real = 0 then x.neg && !y.neg else x.real - y.real < 0
  | .fmul, x, y => x.neg ^^ y.neg
  | .fdiv, x, y => x.neg ^^ y.neg

/-- A zero of the sign asked for, and the rounding of any other sum or difference. -/
theorem F64.sum_rounds (q : ℚ) (zeroNeg : Bool) :
    (if q = 0 then (if zeroNeg then F64.negZero else F64.posZero) else F64.round (q < 0) q).Rounds
      (if q = 0 then zeroNeg else q < 0) q := by
  split
  next h0 =>
    subst h0
    cases zeroNeg with
    | true => exact F64.rounds_of_real_eq_zero rfl F64.real_negZero
    | false => exact F64.rounds_of_real_eq_zero rfl F64.real_posZero
  next => exact F64.round_rounds (fun h => decide_eq_true h) (fun h => decide_eq_false h.not_gt)

/-- Equal signs make a product that is not negative. -/
theorem F64.real_mul_nonneg {x y : F64} (h : (x.neg ^^ y.neg) = false) : 0 ≤ x.real * y.real := by
  cases hx : x.neg with
  | false =>
    have hy : y.neg = false := by simpa [hx] using h
    exact mul_nonneg (F64.real_nonneg hx) (F64.real_nonneg hy)
  | true =>
    have hy : y.neg = true := by simpa [hx] using h
    exact mul_nonneg_of_nonpos_of_nonpos (F64.real_nonpos hx) (F64.real_nonpos hy)

/-- Opposite signs make a product that is not positive. -/
theorem F64.real_mul_nonpos {x y : F64} (h : (x.neg ^^ y.neg) = true) : x.real * y.real ≤ 0 := by
  cases hx : x.neg with
  | false =>
    have hy : y.neg = true := by simpa [hx] using h
    exact mul_nonpos_of_nonneg_of_nonpos (F64.real_nonneg hx) (F64.real_nonpos hy)
  | true =>
    have hy : y.neg = false := by simpa [hx] using h
    exact mul_nonpos_of_nonpos_of_nonneg (F64.real_nonpos hx) (F64.real_nonneg hy)

/-- A value that has the sign of the product is rounded with the exclusive-or of the signs. -/
theorem F64.product_rounds (x y : F64) {q : ℚ} (hpos : 0 ≤ x.real * y.real → 0 ≤ q)
    (hneg : x.real * y.real ≤ 0 → q ≤ 0) : (F64.round (x.neg ^^ y.neg) q).Rounds (x.neg ^^ y.neg) q := by
  refine F64.round_rounds (fun hq => ?negative) (fun hq => ?positive)
  case negative => exact (Bool.eq_false_or_eq_true _).resolve_right fun h => not_le.2 hq (hpos (F64.real_mul_nonneg h))
  case positive => exact (Bool.eq_false_or_eq_true _).resolve_left fun h => not_le.2 hq (hneg (F64.real_mul_nonpos h))

/-- Every operation's result is its exact result, correctly rounded. -/
theorem ArithOp.apply_rounds (op : ArithOp) (x y : F64) :
    (op.apply x y).Rounds (op.sign x y) (op.exact x.real y.real) := by
  cases op with
  | fadd => exact F64.sum_rounds (x.real + y.real) (x.neg && y.neg)
  | fsub => exact F64.sum_rounds (x.real - y.real) (x.neg && !y.neg)
  | fmul => exact F64.product_rounds x y (q := x.real * y.real) id id
  | fdiv =>
    refine F64.product_rounds x y (q := x.real / y.real) (fun h => ?_) (fun h => ?_)
    · rcases mul_nonneg_iff.1 h with ⟨hx, hy⟩ | ⟨hx, hy⟩
      · exact div_nonneg hx hy
      · exact div_nonneg_of_nonpos hx hy
    · rcases mul_nonpos_iff.1 h with ⟨hx, hy⟩ | ⟨hx, hy⟩
      · exact div_nonpos_of_nonneg_of_nonpos hx hy
      · exact div_nonpos_of_nonpos_of_nonneg hx hy

/-! ### Exact results (R112) -/

theorem F64.ofNat_neg (k : Nat) : (F64.ofNat k).neg = false := by
  unfold F64.ofNat
  split <;> rfl

/-- Settles O22: the magnitude by `F64.ofNat_magnitude`; 2^53, the last one, by itself. -/
theorem naturalNumbersAreExact : Obligations.NaturalNumbersAreExact := by
  intro k hk
  refine ⟨?finite, ?value, F64.ofNat_neg k⟩
  case finite =>
    rcases hk.lt_or_eq with hlt | rfl
    · exact Machine.F64.ofNat_isFinite hlt
    · decide
  case value =>
    rw [F64.real_eq, F64.ofNat_neg, F64.ofNat_magnitude hk, if_neg Bool.false_ne_true, Nat.cast_mul, Nat.cast_pow,
      Nat.cast_ofNat, mul_div_assoc, div_self units_pos.ne', mul_one]

/-- The number of the other sign. -/
def F64.flip (v : F64) : F64 := { v with neg := !v.neg }

theorem F64.real_flip (v : F64) : v.flip.real = -v.real := by
  have hmag : v.flip.magnitude = v.magnitude := rfl
  have hneg : v.flip.neg = !v.neg := rfl
  rw [F64.real_eq, F64.real_eq, hmag, hneg]
  cases v.neg <;> simp [neg_div]

/-- An integer of magnitude at most 2^53 is `f64` of its magnitude, up to the sign. -/
theorem exists_real_eq_int {k : Int} (hk : |k| ≤ 2 ^ 53) : ∃ z : F64, z.isFinite = true ∧ z.real = (k : ℚ) := by
  obtain ⟨n, hn⟩ := k.eq_nat_or_neg
  obtain ⟨hf, hreal, -⟩ := naturalNumbersAreExact n (by rcases hn with rfl | rfl <;> simpa using hk)
  rcases hn with rfl | rfl
  · exact ⟨F64.ofNat n, hf, hreal⟩
  · exact ⟨(F64.ofNat n).flip, hf, by rw [F64.real_flip, hreal, Int.cast_neg, Int.cast_natCast]⟩

/-- Settles O23: nothing is nearer to a representable exact result than itself. -/
theorem exactResultsAreKept : Obligations.ExactResultsAreKept := by
  refine ⟨fun op x y z _ hz hexact => ?kept, fun k => exists_real_eq_int⟩
  case kept =>
    obtain ⟨hround, -, -⟩ := op.apply_rounds x y
    rw [← hexact] at hround ⊢
    have hr := hround (F64.abs_real_lt hz)
    have h0 := hr.nearest z hz
    rw [sub_self, abs_zero] at h0
    exact ⟨hr.finite, sub_eq_zero.1 (abs_nonpos_iff.1 h0)⟩

/-- Settles O24: the exact results and the signs commute; a difference of equals is 0, with signs that differ. -/
theorem arithmeticAlgebra : Obligations.ArithmeticAlgebra := by
  intro x y
  refine ⟨?add, ?mul, ?sub⟩
  case add => simp only [fadd, add_comm x.real, Bool.and_comm x.neg]
  case mul => simp only [fmul, mul_comm x.real, Bool.xor_comm x.neg]
  case sub => simp only [fsub, sub_self, if_true, Bool.and_not_self, Bool.false_eq_true, if_false]

end Sys2Proof
end

section
/-! SUPPORT. The instructions' rules, each from its shared handler: LOAD (R100, R101), the arithmetic (R114, R120 to
R123), the comparisons (R140 to R146) and the jumps (R160 to R167). Settles O19, O20, O25 to O34. -/

namespace Sys2Proof.Machine

variable {s t u : State} {a b d r : RegIdx} {x y v : F64}

/-! ### A program that ends inside an instruction (R44, R45) -/

/-- The opcode byte is there: the fetch is its operands'. -/
theorem State.fetchInstr_of_opcode {op : Opcode} (hlt : s.pc.toNat < s.progLen.toNat)
    (hop : s.prog.read s.pc.toNat = op.value) : s.fetchInstr = fetchCursor.readOperands op (s.advance 1) := by
  rw [State.fetchInstr_eq hlt, hop, Opcode.ofByte_value]

/-- Operands that are read byte by byte end at L. -/
theorem step_of_endsInside {op : Opcode} (hfmt : op.format ≠ .I) (h : s.EndsInside op op.format.length) :
    step s = .next s.truncated := by
  obtain ⟨hr, hlt, hop, hend⟩ := h
  rw [BitVec.lt_def] at hlt
  have hpc : (s.advance 1).pc.toNat = s.pc.toNat + 1 := State.advance_pc_toNat hlt
  have hle : (s.advance 1).pc.toNat ≤ (s.advance 1).progLen.toNat := hpc.trans_le hlt
  have hJ : ∀ mk, s.progLen.toNat < s.pc.toNat + 2 →
      fetchCursor.readJ mk (s.advance 1) = .error (⟨.outOfBounds, s.progLen⟩, s.setPc s.progLen) := by
    intro mk hend
    rcases fetch_readJ mk _ hle 0 with ⟨hin, -⟩ | ⟨-, -, hf⟩
    · rw [hpc, State.advance_progLen] at hin; omega
    · exact hf
  have h3 : ∀ mk, s.progLen.toNat < s.pc.toNat + 4 →
      fetchCursor.read3 mk (s.advance 1) = .error (⟨.outOfBounds, s.progLen⟩, s.setPc s.progLen) := by
    intro mk hend
    rcases fetch_read3 mk _ hle 0 with ⟨hin, -⟩ | ⟨-, -, hf⟩
    · rw [hpc, State.advance_progLen] at hin; omega
    · exact hf
  have hfetch := State.fetchInstr_of_opcode hlt hop
  refine step_of_fetchInstr_error (r := ⟨.outOfBounds, s.progLen⟩) (u := s.setPc s.progLen) hr hlt (hfetch.trans ?_)
  cases op with
  | load => exact absurd rfl hfmt
  | nop | hlt => exact absurd hend (Nat.not_lt.2 hlt)
  | jmp | jmpf | jmpb | jeq | jne => exact hJ _ hend
  | add | sub | mul | truediv | eq | ne | gt | lt | ge | le => exact h3 _ hend

/-! ### LOAD -/

/-- LOAD's word is all or nothing: pc stays after the register byte, or at L before it. -/
theorem step_of_load_truncated {n : Nat} (hr : s.status = .running)
    (hop : s.prog.read s.pc.toNat = Opcode.load.value) (hn : n = 1 ∧ s.pc.toNat + 1 = s.progLen.toNat ∨
      n = 2 ∧ s.pc.toNat + 1 < s.progLen.toNat ∧ s.progLen.toNat < s.pc.toNat + 4) :
    step s = .next (s.faulted n .outOfBounds (s.pc + BitVec.ofNat 64 n)) := by
  have hlt : s.pc.toNat < s.progLen.toNat := by omega
  have hpc : (s.advance 1).pc.toNat = s.pc.toNat + 1 := State.advance_pc_toNat hlt
  have hfetch := State.fetchInstr_of_opcode hlt hop
  refine step_of_fetchInstr_error (r := ⟨.outOfBounds, (s.advance n).pc⟩) (u := s.advance n) hr hlt (hfetch.trans ?_)
  rcases fetch_readI .load (s.advance 1) (hpc.trans_le hlt) 0 with ⟨hin, -⟩ | ⟨hword, -, hf⟩ | ⟨hbyte, -, hf⟩
  · rw [hpc, State.advance_progLen] at hin; omega
  · rw [hpc, State.advance_progLen] at hword
    obtain rfl : n = 2 := by omega
    rw [State.advance_advance] at hf
    exact hf
  · rw [hpc, State.advance_progLen] at hbyte
    rw [State.advance_to_end (n := n) (by omega)]
    exact hf

theorem exec_load_of_lt (imm : Half) (h : d.toNat < s.regCount) :
    exec (.load d imm) s = .next ((s.advance 4).setReg d (immValue imm)) :=
  State.runBody_ok (body := fun u => u.writeReg d (immValue imm)) (State.writeReg_of_lt (s := s.advance 4) _ h)

theorem exec_load_of_le (imm : Half) (h : s.regCount ≤ d.toNat) :
    exec (.load d imm) s = .next (s.faulted 4 .registerNotFound (d.setWidth 64)) :=
  State.runBody_raise (body := fun u => u.writeReg d (immValue imm)) (State.writeReg_of_le (s := s.advance 4) _ h)

/-- An immediate's value is exact, finite and positive. -/
theorem immValue_exact (imm : Half) :
    (immValue imm).isFinite = true ∧ (immValue imm).real = (imm.toNat : ℚ) ∧ (immValue imm).neg = false :=
  naturalNumbersAreExact imm.toNat (imm.isLt.le.trans (by decide))

/-- Settles O19: the word's bounds by `fetch_readI`, the effect by the checked write. -/
theorem loadEffect : Obligations.LoadEffect := by
  intro s dst imm
  refine ⟨rfl, fun hr hop hend => step_of_load_truncated hr hop (.inl ⟨rfl, hend⟩),
    fun hr hop hlt hend => step_of_load_truncated hr hop (.inr ⟨rfl, hlt, hend⟩), exec_load_of_le imm, fun h => ?_⟩
  obtain ⟨hf, hreal, hneg⟩ := immValue_exact imm
  exact ⟨immValue imm, hf, hreal, hneg, exec_load_of_lt imm h⟩

/-- A LOAD that raises no fault has written its register. -/
theorem exec_load_running {imm : Half} (h : exec (.load d imm) s = .next t) (ht : t.status = .running) :
    d.toNat < s.regCount ∧ t = (s.advance 4).setReg d (immValue imm) := by
  rcases Nat.lt_or_ge d.toNat s.regCount with hlt | hge
  · cases (exec_load_of_lt imm hlt).symm.trans h
    exact ⟨hlt, rfl⟩
  · cases (exec_load_of_le imm hge).symm.trans h
    cases ht

/-- Settles O20: the second write is to another slot than the first. -/
theorem loadReadsBack : Obligations.LoadReadsBack := by
  intro s t u d e m n hne _ hd ht he hu
  obtain ⟨hdlt, rfl⟩ := exec_load_running hd ht
  obtain ⟨helt, rfl⟩ := exec_load_running he hu
  set w := ((s.advance 4).setReg d (immValue m)).advance 4 with hw
  have hreade : (w.setReg e (immValue n)).readReg e = .ok (immValue n) :=
    State.readReg_setReg_same (by simpa [hw] using helt)
  have hreadd : (w.setReg e (immValue n)).readReg d = .ok (immValue m) :=
    (State.readReg_setReg_of_ne w _ hne).trans (State.readReg_setReg_same (s := s.advance 4) hdlt)
  obtain ⟨-, hmreal, hmneg⟩ := immValue_exact m
  obtain ⟨-, hnreal, hnneg⟩ := immValue_exact n
  exact ⟨_, _, hostReadReg_of_ok hreadd, hostReadReg_of_ok hreade, hreadd, hreade, hmreal, hnreal, hmneg, hnneg⟩

/-! ### Arithmetic -/

theorem arith_of_missing_left (op : ArithOp) (b d : RegIdx) (h : s.regCount ≤ a.toNat) :
    arith op a b d s = .error ⟨.registerNotFound, a.setWidth 64⟩ := by
  simp only [arith, State.readReg_of_le h, bind, Except.bind]

theorem arith_of_missing_right (op : ArithOp) (d : RegIdx) (ha : s.regs[a.toNat]? = some x) (h : s.regCount ≤ b.toNat) :
    arith op a b d s = .error ⟨.registerNotFound, b.setWidth 64⟩ := by
  simp only [arith, State.readReg_of_some ha, State.readReg_of_le h, bind, Except.bind]

/-- Once both operands are read: the zero divisor, the overflow, then the write (R114, D13). -/
theorem arith_of_reads (op : ArithOp) (d : RegIdx) (ha : s.regs[a.toNat]? = some x) (hb : s.regs[b.toNat]? = some y) :
    arith op a b d s =
      if op = .fdiv ∧ y.real = 0 then .error ⟨.divisionByZero, b.setWidth 64⟩
      else if (op.apply x y).isFinite = true then s.writeReg d (op.apply x y)
      else .error ⟨.arithmeticOverflow, d.setWidth 64⟩ := by
  simp only [arith, State.readReg_of_some ha, State.readReg_of_some hb, bind, Except.bind]

/-- The rule of R114 for an instruction of format R that runs the handler, on the operands `defined` leaves. -/
theorem arithRule {op : ArithOp} {i : Instr} {o : Opcode} {defined : ℚ → Prop} (s : State) (a b d : RegIdx)
    (hfmt : o.format = .R) (henc : encode i = [o.value, a, b, d])
    (hexec : exec i s = s.runBody 4 (arith op a b d)) (hdef : ∀ q, defined q → ¬(op = .fdiv ∧ q = 0)) :
    ArithRule s i o a b d op.exact op.sign defined where
  encoding := henc
  truncates h := step_of_endsInside (op := o) (by simp [hfmt]) (by rw [hfmt]; exact h)
  missingA h := hexec.trans (State.runBody_raise (arith_of_missing_left (s := s.advance 4) op b d h))
  missingB ha h := by
    obtain ⟨x, hx⟩ := State.getElem?_of_lt ha
    exact hexec.trans (State.runBody_raise (arith_of_missing_right (s := s.advance 4) op d hx h))
  overflows x y hx hy hy0 h := by
    refine hexec.trans (State.runBody_raise ((arith_of_reads (s := s.advance 4) op d hx hy).trans ?_))
    rw [if_neg (hdef _ hy0), if_neg fun hf => not_lt.2 h ((op.apply_rounds x y).finite.1 hf)]
  missingD x y hx hy hy0 h hd := by
    refine hexec.trans (State.runBody_raise ((arith_of_reads (s := s.advance 4) op d hx hy).trans ?_))
    rw [if_neg (hdef _ hy0), if_pos ((op.apply_rounds x y).finite.2 h)]
    exact State.writeReg_of_le (s := s.advance 4) _ hd
  completes x y hx hy hy0 h hd := by
    obtain ⟨hround, hsign, hfinite⟩ := op.apply_rounds x y
    refine ⟨op.apply x y, hround h, hsign,
      hexec.trans (State.runBody_ok ((arith_of_reads (s := s.advance 4) op d hx hy).trans ?_))⟩
    rw [if_neg (hdef _ hy0), if_pos (hfinite.2 h)]
    exact State.writeReg_of_lt (s := s.advance 4) _ hd

/-- Settles O25: the handler's rule with `fadd`. -/
theorem addEffect : Obligations.AddEffect := fun s a b d =>
  arithRule (op := .fadd) s a b d rfl rfl rfl (fun _ _ => by simp)

/-- Settles O26: the handler's rule with `fsub`. -/
theorem subEffect : Obligations.SubEffect := fun s a b d =>
  arithRule (op := .fsub) s a b d rfl rfl rfl (fun _ _ => by simp)

/-- Settles O27: the handler's rule with `fmul`. -/
theorem mulEffect : Obligations.MulEffect := fun s a b d =>
  arithRule (op := .fmul) s a b d rfl rfl rfl (fun _ _ => by simp)

/-- Settles O28: the handler's rule with `fdiv`, and its first check for either zero. -/
theorem truedivEffect : Obligations.TruedivEffect := by
  intro s a b d
  refine ⟨arithRule (op := .fdiv) s a b d rfl rfl rfl (fun _ hq h => hq h.2), fun x y hx hy h0 => ?zero⟩
  case zero =>
    have harith := arith_of_reads (s := s.advance 4) .fdiv d hx hy
    rw [if_pos ⟨rfl, h0⟩] at harith
    exact State.runBody_raise harith

/-! ### Comparisons -/

theorem compareRegs_of_missing_left (c : Cmp) (b : RegIdx) (h : s.regCount ≤ a.toNat) :
    compareRegs c a b s = .error ⟨.registerNotFound, a.setWidth 64⟩ := by
  simp only [compareRegs, State.readReg_of_le h, bind, Except.bind]

theorem compareRegs_of_missing_right (c : Cmp) (ha : s.regs[a.toNat]? = some x) (h : s.regCount ≤ b.toNat) :
    compareRegs c a b s = .error ⟨.registerNotFound, b.setWidth 64⟩ := by
  simp only [compareRegs, State.readReg_of_some ha, State.readReg_of_le h, bind, Except.bind]

theorem compareRegs_of_reads (c : Cmp) (ha : s.regs[a.toNat]? = some x) (hb : s.regs[b.toNat]? = some y) :
    compareRegs c a b s = .ok (s.setFlag (c.holds x.real y.real)) := by
  simp only [compareRegs, State.readReg_of_some ha, State.readReg_of_some hb, bind, Except.bind]

/-- The rule of R140 for an instruction of format C that runs the handler with `c`. -/
theorem comparisonRule {c : Cmp} {i : Instr} {o : Opcode} {p : Byte} {rel : ℚ → ℚ → Prop} (s : State) (a b : RegIdx)
    (hfmt : o.format = .C) (henc : encode i = [o.value, a, b, p])
    (hexec : exec i s = s.runBody 4 (compareRegs c a b)) (hrel : ∀ q w, c.holds q w = true ↔ rel q w) :
    ComparisonRule s i o a b p rel where
  encoding := henc
  truncates h := step_of_endsInside (op := o) (by simp [hfmt]) (by rw [hfmt]; exact h)
  missingA h := hexec.trans (State.runBody_raise (compareRegs_of_missing_left (s := s.advance 4) c b h))
  missingB ha h := by
    obtain ⟨x, hx⟩ := State.getElem?_of_lt ha
    exact hexec.trans (State.runBody_raise (compareRegs_of_missing_right (s := s.advance 4) c hx h))
  completes x y hx hy :=
    ⟨c.holds x.real y.real, hrel _ _,
      hexec.trans (State.runBody_ok (compareRegs_of_reads (s := s.advance 4) c hx hy))⟩

/-- Settles O29: the handler's rule with each of the six relations. -/
theorem comparisonEffects : Obligations.ComparisonEffects := fun s a b _ =>
  ⟨comparisonRule (c := .eq) s a b rfl rfl rfl fun _ _ => decide_eq_true_iff,
    comparisonRule (c := .ne) s a b rfl rfl rfl fun _ _ => decide_eq_true_iff,
    comparisonRule (c := .gt) s a b rfl rfl rfl fun _ _ => decide_eq_true_iff,
    comparisonRule (c := .lt) s a b rfl rfl rfl fun _ _ => decide_eq_true_iff,
    comparisonRule (c := .ge) s a b rfl rfl rfl fun _ _ => decide_eq_true_iff,
    comparisonRule (c := .le) s a b rfl rfl rfl fun _ _ => decide_eq_true_iff⟩

/-- Opposite relations of the same registers answer the same state with opposite flags. -/
theorem runBody_compareRegs_opposite {c c' : Cmp} (hopp : ∀ q w, c'.holds q w = !c.holds q w)
    (ha : a.toNat < s.regCount) (hb : b.toNat < s.regCount) :
    ∃ t, s.runBody 4 (compareRegs c a b) = .next t ∧
      s.runBody 4 (compareRegs c' a b) = .next { t with flag := !t.flag } := by
  obtain ⟨x, hx⟩ := State.getElem?_of_lt ha
  obtain ⟨y, hy⟩ := State.getElem?_of_lt hb
  have hopposite := compareRegs_of_reads (s := s.advance 4) c' hx hy
  rw [hopp] at hopposite
  exact ⟨_, State.runBody_ok (compareRegs_of_reads (s := s.advance 4) c hx hy), State.runBody_ok hopposite⟩

/-- Settles O30: each of the three is the negation of its opposite on the exact values. -/
theorem comparisonsOppose : Obligations.ComparisonsOppose := by
  intro s a b p ha hb
  refine ⟨runBody_compareRegs_opposite (c := .eq) (c' := .ne) (fun q w => ?ne) ha hb,
    runBody_compareRegs_opposite (c := .lt) (c' := .ge) (fun q w => ?ge) ha hb,
    runBody_compareRegs_opposite (c := .gt) (c' := .le) (fun q w => ?le) ha hb⟩
  case ne => simp [Cmp.holds]
  case ge => simp [Cmp.holds, ← not_lt]
  case le => simp [Cmp.holds, ← not_lt]

/-- Writing the fourth byte replaces it in what the machine is about to fetch. -/
theorem State.Fetches.write_fourth {b0 b1 b2 p : Byte} (hwf : s.prog.wf) (h : s.Fetches [b0, b1, b2, p]) (q : Byte) :
    (s.withProg (s.prog.write (s.pc.toNat + 3) q)).Fetches [b0, b1, b2, q] := by
  obtain ⟨hr, hlen, hread⟩ := h
  refine ⟨hr, hlen, fun k c hk => (Memory.read_write hwf (s.pc.toNat + 3) q (s.pc.toNat + k)).trans ?_⟩
  match k, hk with
  | 0, hk => rw [if_neg (by omega)]; exact hread 0 c hk
  | 1, hk => rw [if_neg (by omega)]; exact hread 1 c hk
  | 2, hk => rw [if_neg (by omega)]; exact hread 2 c hk
  | 3, hk => rw [if_pos rfl]; exact Option.some.inj hk

/-- An instruction of one fourth byte, whose effect does not depend on it, answers the same with another there. -/
theorem step_write_fourth {mk : Byte → Instr} {b0 b1 b2 p : Byte} (henc : ∀ p, encode (mk p) = [b0, b1, b2, p])
    (hexec : ∀ p q u, exec (mk p) u = exec (mk q) u) (hwf : s.prog.wf) (h : s.Fetches [b0, b1, b2, p]) (q : Byte) :
    ∃ t, step s = .next t ∧ step (s.withProg (s.prog.write (s.pc.toNat + 3) q)) =
      .next (t.withProg (s.prog.write (s.pc.toNat + 3) q)) := by
  have hq := h.write_fourth hwf q
  rw [← henc] at h hq
  obtain ⟨t, ht⟩ := exec_answers (mk p) s
  refine ⟨t, (step_of_fetches h).trans ht, (step_of_fetches hq).trans ?_⟩
  rw [hexec q p]
  exact exec_withProg _ ht

/-- Settles O31: for each comparison the dispatch drops the padding byte. -/
theorem paddingByteMeansNothing : Obligations.PaddingByteMeansNothing := by
  intro s op a b p q hop hwf h
  cases op with
  | eq => exact step_write_fourth (mk := .eq a b) (fun _ => rfl) (fun _ _ _ => rfl) hwf h q
  | ne => exact step_write_fourth (mk := .ne a b) (fun _ => rfl) (fun _ _ _ => rfl) hwf h q
  | gt => exact step_write_fourth (mk := .gt a b) (fun _ => rfl) (fun _ _ _ => rfl) hwf h q
  | lt => exact step_write_fourth (mk := .lt a b) (fun _ => rfl) (fun _ _ _ => rfl) hwf h q
  | ge => exact step_write_fourth (mk := .ge a b) (fun _ => rfl) (fun _ _ _ => rfl) hwf h q
  | le => exact step_write_fourth (mk := .le a b) (fun _ => rfl) (fun _ _ _ => rfl) hwf h q
  | nop | hlt | load | add | sub | mul | truediv | jmp | jmpf | jmpb | jeq | jne => cases hop

/-! ### Jumps -/

theorem jumpAbsolute_of_missing (taken : Bool → Bool) (h : s.regCount ≤ r.toNat) :
    jumpAbsolute taken r s = .error ⟨.registerNotFound, r.setWidth 64⟩ := by
  simp only [jumpAbsolute, State.readReg_of_le h, bind, Except.bind]

theorem jumpAbsolute_of_taken {taken : Bool → Bool} (hr : s.regs[r.toNat]? = some v) (h : taken s.flag = true) :
    jumpAbsolute taken r s = jumpTo v.real r s := by
  simp only [jumpAbsolute, State.readReg_of_some hr, bind, Except.bind, h, if_true]

theorem jumpAbsolute_of_untaken {taken : Bool → Bool} (hr : s.regs[r.toNat]? = some v) (h : taken s.flag = false) :
    jumpAbsolute taken r s = .ok s := by
  simp only [jumpAbsolute, State.readReg_of_some hr, bind, Except.bind, h, Bool.false_eq_true, if_false]

theorem jumpRelative_of_missing (target : ℚ → ℚ → ℚ) (h : s.regCount ≤ r.toNat) :
    jumpRelative target r s = .error ⟨.registerNotFound, r.setWidth 64⟩ := by
  simp only [jumpRelative, State.readReg_of_le h, bind, Except.bind]

theorem jumpRelative_of_read (target : ℚ → ℚ → ℚ) (hr : s.regs[r.toNat]? = some v) :
    jumpRelative target r s = jumpTo (target (addrValue s.pc) v.real) r s := by
  simp only [jumpRelative, State.readReg_of_some hr, bind, Except.bind]

/-- The rule of R160 for an instruction of format J whose statements jump to `target` of the register's value. -/
theorem takenJumpRule {i : Instr} {o : Opcode} {body : State → Except Raise State} {target : ℚ → ℚ}
    (hfmt : o.format = .J) (henc : encode i = [o.value, r]) (hexec : exec i s = s.runBody 2 body)
    (hmissing : s.regCount ≤ r.toNat → body (s.advance 2) = .error ⟨.registerNotFound, r.setWidth 64⟩)
    (hjump : ∀ v, s.regs[r.toNat]? = some v → body (s.advance 2) = jumpTo (target v.real) r (s.advance 2)) :
    TakenJumpRule s i o r target where
  encoding := henc
  truncates h := step_of_endsInside (op := o) (by simp [hfmt]) (by rw [hfmt]; exact h)
  missing h := hexec.trans (State.runBody_raise (hmissing h))
  badTarget v hv h := hexec.trans (State.runBody_raise ((hjump v hv).trans (jumpTo_of_not_nat r _ h)))
  completes v hv _ hk h := hexec.trans (State.runBody_ok ((hjump v hv).trans (jumpTo_of_nat r _ hk h)))

/-- An absolute jump that the flag takes. -/
theorem takenJumpRule_absolute {i : Instr} {o : Opcode} {taken : Bool → Bool} (hfmt : o.format = .J)
    (henc : encode i = [o.value, r]) (hexec : exec i s = s.runBody 2 (jumpAbsolute taken r))
    (htaken : taken s.flag = true) : TakenJumpRule s i o r fun q => q :=
  takenJumpRule hfmt henc hexec (jumpAbsolute_of_missing (s := s.advance 2) taken)
    fun _ hv => jumpAbsolute_of_taken (s := s.advance 2) hv htaken

/-- A jump relative to pc_next. -/
theorem takenJumpRule_relative {i : Instr} {o : Opcode} {target : ℚ → ℚ → ℚ} (hfmt : o.format = .J)
    (henc : encode i = [o.value, r]) (hexec : exec i s = s.runBody 2 (jumpRelative target r)) :
    TakenJumpRule s i o r (target (addrValue (s.pc + 2))) :=
  takenJumpRule hfmt henc hexec (jumpRelative_of_missing (s := s.advance 2) target)
    fun _ hv => jumpRelative_of_read (s := s.advance 2) target hv

/-- Settles O32: JMP is always taken; the relative jumps add to or subtract from pc_next. -/
theorem unconditionalJumps : Obligations.UnconditionalJumps := fun _ _ =>
  ⟨takenJumpRule_absolute rfl rfl rfl rfl, takenJumpRule_relative (target := fun pc v => pc + v) rfl rfl rfl,
    takenJumpRule_relative (target := fun pc v => pc - v) rfl rfl rfl⟩

/-- An untaken jump has checked its register, and moves to pc_next. -/
theorem runBody_jumpAbsolute_untaken {taken : Bool → Bool} (htaken : taken s.flag = false)
    (h : r.toNat < s.regCount) : s.runBody 2 (jumpAbsolute taken r) = .next (s.advance 2) := by
  obtain ⟨v, hv⟩ := State.getElem?_of_lt h
  exact State.runBody_ok (jumpAbsolute_of_untaken (s := s.advance 2) hv htaken)

theorem runBody_jumpAbsolute_missing (taken : Bool → Bool) (h : s.regCount ≤ r.toNat) :
    s.runBody 2 (jumpAbsolute taken r) = .next (s.faulted 2 .registerNotFound (r.setWidth 64)) :=
  State.runBody_raise (jumpAbsolute_of_missing (s := s.advance 2) taken h)

/-- Settles O33: the flag decides which of the two is taken; the register is checked either way. -/
theorem conditionalJumps : Obligations.ConditionalJumps := by
  intro s r
  refine ⟨rfl, rfl, step_of_endsInside (op := .jeq) nofun, step_of_endsInside (op := .jne) nofun,
    fun h => ⟨runBody_jumpAbsolute_missing _ h, runBody_jumpAbsolute_missing _ h⟩, fun hf => ?flagTrue,
    fun hf => ?flagFalse⟩
  case flagTrue =>
    exact ⟨takenJumpRule_absolute (taken := fun f => f) rfl rfl rfl hf,
      runBody_jumpAbsolute_untaken (taken := fun f => !f) (by simp [hf])⟩
  case flagFalse =>
    exact ⟨takenJumpRule_absolute (taken := fun f => !f) rfl rfl rfl (by simp [hf]),
      runBody_jumpAbsolute_untaken (taken := fun f => f) hf⟩

/-- A step that changes nothing in RUNNING is repeated for ever. -/
theorem hangs_of_step_self (hr : s.status = .running) (h : step s = .next s) : Hangs s := by
  rintro t ⟨k, hk, hend⟩
  have hself : t = s := runFor_keeps (P := fun u => u = s) (fun u v hu hv => by
    subst hu
    cases h.symm.trans hv
    rfl) rfl hk
  exact hend (hself ▸ hr)

/-- Settles O34: the jump's target is the pc it started from. -/
theorem jumpToItselfHangs : Obligations.JumpToItselfHangs := by
  intro s r v hfetch hv hreal
  obtain ⟨hjmp, -, -⟩ := unconditionalJumps s r
  have hstep : step s = .next s := by
    rw [step_of_fetches hfetch, hjmp.completes v hv s.pc.toNat s.pc.isLt hreal, BitVec.ofNat_toNat, BitVec.setWidth_eq]
  exact ⟨hstep, hangs_of_step_self hfetch.1 hstep⟩

end Sys2Proof.Machine
end

section
/-! SUPPORT. The comparison flag (R28): who writes it, along a step and a run, and who reads it. Settles O36. -/

namespace Sys2Proof.Machine

variable {s t : State} {i : Instr}

/-! ### Who writes the flag -/

theorem Effect.flag_frame (h : Effect i s t) (hi : i.isComparison = false) : t.flag = s.flag := by
  cases h with
  | flag hc => exact absurd hc (by simp [hi])
  | nothing | register | jump | halt => rfl

theorem exec_flag_frame (hi : i.isComparison = false) (h : exec i s = .next t) : t.flag = s.flag := by
  rcases exec_cases i s with ⟨u, heff, he⟩ | ⟨r, -, he⟩ <;> cases he.symm.trans h
  · exact heff.flag_frame hi
  · rfl

/-- The bytes at pc are a comparison. -/
def State.ComparisonAtPc (s : State) : Prop :=
  ∃ i rest, decode s.bytesAtPc = .ok (i, rest) ∧ i.isComparison = true

/-- A step that changes the flag runs a comparison. -/
theorem comparisonAtPc_of_step (h : step s = .next t) (hne : t.flag ≠ s.flag) : s.ComparisonAtPc := by
  by_cases hr : s.status = .running
  · cases stepped_of_running hr h with
    | exhausted => exact absurd rfl hne
    | faulted => exact absurd rfl hne
    | @ran i rest _ hd heff =>
      refine ⟨i, rest, hd, ?_⟩
      by_contra hi
      exact hne (heff.flag_frame (Bool.eq_false_iff.2 hi))
  · cases (step_of_terminal hr).symm.trans h
    exact absurd rfl hne

/-- A run that changes the flag runs a comparison in one of its steps: the first that changes it. -/
theorem comparisonAtPc_of_runFor {k : Nat} (h : runFor k s = .next t) (hne : t.flag ≠ s.flag) :
    ∃ j u, j < k ∧ runFor j s = .next u ∧ u.ComparisonAtPc := by
  induction k generalizing s with
  | zero => cases h; exact absurd rfl hne
  | succ k ih =>
    by_cases hr : s.status = .running
    · obtain ⟨v, hv⟩ := step_answers s
      by_cases hflag : v.flag = s.flag
      · rw [runFor_succ_of_running hr hv] at h
        obtain ⟨j, u, hj, hu, hcmp⟩ := ih h (by rwa [hflag])
        exact ⟨j + 1, u, Nat.succ_lt_succ hj, (runFor_succ_of_running hr hv).trans hu, hcmp⟩
      · exact ⟨0, s, Nat.succ_pos k, rfl, comparisonAtPc_of_step hv hflag⟩
    · cases (runFor_of_terminal hr _).symm.trans h
      exact absurd rfl hne

/-! ### Who reads the flag -/

theorem State.readReg_setFlag (s : State) (b : Bool) (r : RegIdx) : (s.setFlag b).readReg r = s.readReg r := rfl

theorem State.writeReg_setFlag (s : State) (b : Bool) (r : RegIdx) (v : F64) :
    (s.setFlag b).writeReg r v = (·.setFlag b) <$> s.writeReg r v := by
  rcases Nat.lt_or_ge r.toNat s.regCount with h | h
  · rw [State.writeReg_of_lt v h, State.writeReg_of_lt (s := s.setFlag b) v h]
    rfl
  · rw [State.writeReg_of_le v h, State.writeReg_of_le (s := s.setFlag b) v h]
    rfl

theorem arith_setFlag (op : ArithOp) (x y d : RegIdx) (s : State) (b : Bool) :
    arith op x y d (s.setFlag b) = (·.setFlag b) <$> arith op x y d s := by
  simp only [arith, State.readReg_setFlag, State.writeReg_setFlag, map_bind]
  refine bind_congr fun _ => bind_congr fun _ => ?_
  split_ifs <;> rfl

/-- A comparison writes over the flag whatever it was. -/
theorem compareRegs_setFlag (c : Cmp) (x y : RegIdx) (s : State) (b : Bool) :
    compareRegs c x y (s.setFlag b) = compareRegs c x y s := rfl

theorem jumpTo_setFlag (q : Rat) (r : RegIdx) (s : State) (b : Bool) :
    jumpTo q r (s.setFlag b) = (·.setFlag b) <$> jumpTo q r s := by
  simp only [jumpTo, map_bind]
  rfl

theorem jumpAbsolute_always_setFlag (r : RegIdx) (s : State) (b : Bool) :
    jumpAbsolute (fun _ => true) r (s.setFlag b) = (·.setFlag b) <$> jumpAbsolute (fun _ => true) r s := by
  simp only [jumpAbsolute, State.readReg_setFlag, jumpTo_setFlag, map_bind, if_true]

theorem jumpRelative_setFlag (target : Rat → Rat → Rat) (r : RegIdx) (s : State) (b : Bool) :
    jumpRelative target r (s.setFlag b) = (·.setFlag b) <$> jumpRelative target r s := by
  simp only [jumpRelative, State.readReg_setFlag, jumpTo_setFlag, State.setFlag_pc, map_bind]

/-- Apart from JEQ and JNE no instruction's statements look at the flag: a comparison overwrites it, the rest carry it
along. -/
theorem instrBody_setFlag (s : State) (b : Bool) (hjeq : i.opcode ≠ .jeq) (hjne : i.opcode ≠ .jne) :
    (i.isComparison = true ∧ instrBody i (s.setFlag b) = instrBody i s) ∨
    (i.isComparison = false ∧ instrBody i (s.setFlag b) = (·.setFlag b) <$> instrBody i s) := by
  cases i with
  | jeq => exact absurd rfl hjeq
  | jne => exact absurd rfl hjne
  | eq | ne | gt | lt | ge | le => exact .inl ⟨rfl, compareRegs_setFlag _ _ _ s b⟩
  | nop | hlt => exact .inr ⟨rfl, rfl⟩
  | load d imm => exact .inr ⟨rfl, s.writeReg_setFlag b d _⟩
  | add | sub | mul | truediv => exact .inr ⟨rfl, arith_setFlag _ _ _ _ s b⟩
  | jmp r => exact .inr ⟨rfl, jumpAbsolute_always_setFlag r s b⟩
  | jmpf | jmpb => exact .inr ⟨rfl, jumpRelative_setFlag _ _ s b⟩

/-- With another flag before it, an instruction other than JEQ and JNE answers the same state, or that state with the
other flag still in it; the latter for a comparison only where it faults. -/
theorem exec_setFlag (s : State) (b : Bool) (hjeq : i.opcode ≠ .jeq) (hjne : i.opcode ≠ .jne) :
    ∃ t u, exec i s = .next t ∧ exec i (s.setFlag b) = .next u ∧
      (u = t ∨ (u = t.setFlag b ∧ (i.isComparison = true → t.status ≠ .running))) := by
  have hadv : (s.setFlag b).advance i.length = (s.advance i.length).setFlag b := rfl
  simp only [exec_eq_runBody]
  rcases instrBody_setFlag (s.advance i.length) b hjeq hjne with ⟨hi, hbody⟩ | ⟨hi, hbody⟩ <;> rw [← hadv] at hbody <;>
    rcases s.runBody_cases i.length (instrBody i) with ⟨t, hb, hrun⟩ | ⟨r, hb, hrun⟩ <;> rw [hb] at hbody
  · exact ⟨t, t, hrun, State.runBody_ok hbody, .inl rfl⟩
  · exact ⟨_, _, hrun, State.runBody_error hbody, .inr ⟨rfl, fun _ => nofun⟩⟩
  · exact ⟨t, _, hrun, State.runBody_ok hbody, .inr ⟨rfl, fun hc => absurd hc (by simp [hi])⟩⟩
  · exact ⟨_, _, hrun, State.runBody_error hbody, .inr ⟨rfl, fun _ => nofun⟩⟩

/-- Settles O36: the writers by `Effect.flag_frame`, along a run by its first change, the readers by `exec_setFlag`. -/
theorem flagIsTheComparisonsOwn : Obligations.FlagIsTheComparisonsOwn := by
  refine ⟨fun prog n s h => ?constructed, fun _ _ _ => exec_flag_frame, fun _ _ => comparisonAtPc_of_step,
    fun k s t h hne => ?run, fun s t r v h => ?hostWrite, fun _ => rfl, fun i s b hjeq hjne => ?read⟩
  case constructed =>
    obtain ⟨-, -, rfl⟩ := construct_eq_ok_iff.1 h
    rfl
  case run =>
    obtain ⟨j, u, hj, hu, i, rest, hd, hi⟩ := comparisonAtPc_of_runFor h hne
    exact ⟨j, u, i, rest, hj, hu, hd, hi⟩
  case hostWrite =>
    obtain ⟨-, -, rfl⟩ := hostWriteReg_eq_ok_iff.1 h
    rfl
  case read =>
    obtain ⟨t, u, ht, hu, rfl | ⟨rfl, hfault⟩⟩ := exec_setFlag s b hjeq hjne
    · exact ⟨u, u, ht, hu, rfl, rfl, rfl, rfl, rfl, fun _ _ _ => rfl⟩
    · exact ⟨t, t.setFlag b, ht, hu, rfl, rfl, rfl, rfl, rfl, fun hc _ hrun => absurd hrun (hfault hc)⟩

end Sys2Proof.Machine
end
